-- ==== Sys2Proof/Config.lean ====
section
/-! DEFINITION. The implementation parameters of 00_scope.md rule R9, each at the default the spec gives it, and the one
parameter the spec leaves OPEN. Widths (`XLEN`, `IMM_BITS`, register indices) are fixed in the types of Word.lean. -/

namespace Sys2Proof

/-- `NREGS` (R9): the number of general registers. -/
abbrev Config.nregs : Nat := 32

/-- `DMEM_WORDS` (R9): the data memory's size in words. -/
abbrev Config.dmemWords : Nat := 1024

/-- `WORD_BYTES` (R9): byte-address units in a word. -/
abbrev Config.wordBytes : Nat := 4

/-- `XLEN = 8 * WORD_BYTES` (R9, D1): bits of a word. -/
abbrev Config.xlen : Nat := 8 * Config.wordBytes

/-- `IMM_BITS` (R9, D2): bits of the immediate. -/
abbrev Config.immBits : Nat := 16

/-- `PC_WIDTH` (R9, D9): bits of `PC` in a hardware build. -/
abbrev Config.pcWidth : Nat := 32

/-- `PROG_MAX` (R9, D9): the longest program `load` accepts. -/
abbrev Config.progMax : Nat := 2 ^ Config.pcWidth - 1

/-- `LOAD_CLEARS_ARCH` (R9, R214, D14): whether `load` also zeroes registers and data memory; false by default. -/
abbrev Config.loadClearsArch : Bool := false

/-- `DEFAULT_CYCLES` (R9, R217): the original run loop's cycle budget. Informative: no rule reads it. -/
abbrev Config.defaultCycles : Nat := 30

/-- The two orders in which the bytes of a word can lie. -/
inductive Config.ByteOrder
  | littleEndian
  | bigEndian
  deriving DecidableEq, Repr, Inhabited

/-- `BYTE_ORDER` (R9, R60, D20): OPEN, and read by no rule. It has no body, so nothing can be proved of its value. -/
opaque Config.byteOrder : Config.ByteOrder

end Sys2Proof
end

