-- ==== Sys2Proof/Word.lean ====
section
/-! DEFINITION. The word, the register index and the immediate field (00_scope.md rules R10 and R11). The unsigned reading
`u(v)` of the spec is `BitVec.toNat`, the signed reading `s(v)` is `BitVec.toInt`; `+` and `-` on words are the spec's `+32`
and `-32`, modulo 2^32. -/

namespace Sys2Proof

/-- A word: `XLEN` = 32 bits (R10). -/
abbrev Word := BitVec 32

/-- The immediate as the instruction carries it: a signed integer of `IMM_BITS` = 16 bits, in two's complement (R74). -/
abbrev Imm := BitVec 16

/-- A register index, an integer in `0 .. NREGS-1` (R73). -/
abbrev Reg := Fin 32

end Sys2Proof
end

