-- ==== Sys2Proof/Syntax.lean ====
section
/-! DEFINITION. The ten instructions (30_encoding.md rules R70 to R72): the closed sum type with one constructor per opcode,
each carrying exactly its required fields, destination first as in rule R94. -/

namespace Sys2Proof

/-- An instruction of PIPE10 (R2, R70). The set is closed (R71); an instruction carries nothing else (R79). -/
inductive Instr
  /-- `add rd, rs, rt` (R171). -/
  | add (rd rs rt : Reg)
  /-- `sub rd, rs, rt` (R172). -/
  | sub (rd rs rt : Reg)
  /-- `and rd, rs, rt` (R173). -/
  | and (rd rs rt : Reg)
  /-- `or rd, rs, rt` (R174). -/
  | or (rd rs rt : Reg)
  /-- `slt rd, rs, rt` (R175). -/
  | slt (rd rs rt : Reg)
  /-- `addi rt, rs, imm` (R181). -/
  | addi (rt rs : Reg) (imm : Imm)
  /-- `slti rt, rs, imm` (R182). -/
  | slti (rt rs : Reg) (imm : Imm)
  /-- `lw rt, imm(rs)` (R192). -/
  | lw (rt rs : Reg) (imm : Imm)
  /-- `sw rt, imm(rs)` (R193). -/
  | sw (rt rs : Reg) (imm : Imm)
  /-- `nop` (R200). -/
  | nop
  deriving DecidableEq, Repr

end Sys2Proof
end

