-- ==== Sys2Proof/WellFormed.lean ====
section
/-! DEFINITION. The instruction record of 30_encoding.md rule R70, as `load` is given it, and its well-formedness (R72 to R75).
A record may lack a field or hold an integer out of range; an `Instr` cannot. The function that turns a well-formed record into
an `Instr`, and names the error of one that is not, is `Sys2Proof.Machine.resolve`. -/

namespace Sys2Proof

/-- The opcode enumeration of R70: ten values and no others (R71). -/
inductive Opcode
  | add | sub | and | or | slt | addi | slti | lw | sw | nop
  deriving DecidableEq, Repr

/-- The three formats of R71: register, immediate, no operands. -/
inductive Format
  | r | i | n
  deriving DecidableEq, Repr

/-- The format of each opcode (R71, R72). -/
def Opcode.format : Opcode → Format
  | .add => .r
  | .sub => .r
  | .and => .r
  | .or => .r
  | .slt => .r
  | .addi => .i
  | .slti => .i
  | .lw => .i
  | .sw => .i
  | .nop => .n

/-- The opcode of an instruction. -/
def Instr.opcode : Instr → Opcode
  | .add _ _ _ => .add
  | .sub _ _ _ => .sub
  | .and _ _ _ => .and
  | .or _ _ _ => .or
  | .slt _ _ _ => .slt
  | .addi _ _ _ => .addi
  | .slti _ _ _ => .slti
  | .lw _ _ _ => .lw
  | .sw _ _ _ => .sw
  | .nop => .nop

/-- The record of R70: an opcode and four optional integer fields. -/
structure Record where
  opcode : Opcode
  rd : Option Int := none
  rs : Option Int := none
  rt : Option Int := none
  imm : Option Int := none
  deriving DecidableEq, Repr

/-- The two error kinds a record can have (R75, R240). -/
inductive RecordError
  | malformedInstruction
  | outOfRangeRegister
  deriving DecidableEq, Repr

/-- R75 (a): every field R72 requires for the opcode is present. -/
def Record.fieldsPresent (r : Record) : Bool :=
  match r.opcode.format with
  | .r => r.rd.isSome && r.rs.isSome && r.rt.isSome
  | .i => r.rt.isSome && r.rs.isSome && r.imm.isSome
  | .n => true

/-- A register field is absent or an integer in `0 .. NREGS-1` (R73). -/
def regFieldInRange : Option Int → Bool
  | none => true
  | some n => decide (0 ≤ n ∧ n < Config.nregs)

/-- R75 (b): every PRESENT register field is in range, a surplus one too. DEDUCED from the words "every present", beside (c)'s
"if required" (log entry 8). -/
def Record.registersInRange (r : Record) : Bool :=
  regFieldInRange r.rd && regFieldInRange r.rs && regFieldInRange r.rt

/-- R75 (c), R74: `imm`, if required, lies in `-2^(IMM_BITS-1) .. 2^(IMM_BITS-1)-1`. -/
def Record.immInRange (r : Record) : Bool :=
  match r.opcode.format, r.imm with
  | .i, some n => decide (-(2 ^ (Config.immBits - 1)) ≤ n ∧ n < 2 ^ (Config.immBits - 1))
  | .i, none => true
  | .r, _ => true
  | .n, _ => true

/-- `WF(i)` of R75. -/
def Record.WellFormed (r : Record) : Prop :=
  r.fieldsPresent = true ∧ r.registersInRange = true ∧ r.immInRange = true

/-- The record an instruction is (R70): its opcode and exactly its required fields. -/
def Instr.toRecord : Instr → Record
  | .add rd rs rt => { opcode := .add, rd := some rd.val, rs := some rs.val, rt := some rt.val }
  | .sub rd rs rt => { opcode := .sub, rd := some rd.val, rs := some rs.val, rt := some rt.val }
  | .and rd rs rt => { opcode := .and, rd := some rd.val, rs := some rs.val, rt := some rt.val }
  | .or rd rs rt => { opcode := .or, rd := some rd.val, rs := some rs.val, rt := some rt.val }
  | .slt rd rs rt => { opcode := .slt, rd := some rd.val, rs := some rs.val, rt := some rt.val }
  | .addi rt rs imm => { opcode := .addi, rt := some rt.val, rs := some rs.val, imm := some imm.toInt }
  | .slti rt rs imm => { opcode := .slti, rt := some rt.val, rs := some rs.val, imm := some imm.toInt }
  | .lw rt rs imm => { opcode := .lw, rt := some rt.val, rs := some rs.val, imm := some imm.toInt }
  | .sw rt rs imm => { opcode := .sw, rt := some rt.val, rs := some rs.val, imm := some imm.toInt }
  | .nop => { opcode := .nop }

/-- An instruction is well formed when its record is (R75). Every `Instr` is: see `Sys2Proof.Laws.instr_wellFormed`. -/
def Instr.WellFormed (i : Instr) : Prop := i.toRecord.WellFormed

end Sys2Proof
end

