-- ==== Sys2Proof/Decode.lean ====
section
/-! DEFINITION. The 32-bit word encoding of 30_encoding.md Part 2 (rules R80 to R91): the total decoder of R88, which rejects by
name, the encoder of R85, and the opcode map of R84 as data. A word is a word, not four bytes: BYTE_ORDER is OPEN and no rule
reads it (R60), so the decoder takes words (log entry 3). -/

namespace Sys2Proof

/-- Why a word is illegal: the classes of R89. -/
inductive Illegal
  /-- `opcode6` is none of `0x00 0x08 0x0A 0x23 0x2B`. -/
  | unknownOpcode (opcode6 : BitVec 6)
  /-- `opcode6 = 0` and `shamt ≠ 0` (R86). -/
  | nonzeroShamt (shamt : BitVec 5)
  /-- `opcode6 = 0`, `shamt = 0`, and `funct` is no function code of R84. -/
  | unknownFunct (funct : BitVec 6)
  /-- `opcode6 = 0`, `shamt = 0`, `funct = 0`, but a register field is not zero. -/
  | nopWithFields
  deriving DecidableEq, Repr

/-- `bits[31:26]`, the field `opcode6` of R81 and R82. -/
def fieldOpcode (w : Word) : BitVec 6 := w.extractLsb' 26 6

/-- `bits[25:21]`, the field `rs`. -/
def fieldRs (w : Word) : Reg := (w.extractLsb' 21 5).toFin

/-- `bits[20:16]`, the field `rt`. -/
def fieldRt (w : Word) : Reg := (w.extractLsb' 16 5).toFin

/-- `bits[15:11]`, the field `rd`. -/
def fieldRd (w : Word) : Reg := (w.extractLsb' 11 5).toFin

/-- `bits[10:6]`, the field `shamt`. -/
def fieldShamt (w : Word) : BitVec 5 := w.extractLsb' 6 5

/-- `bits[5:0]`, the field `funct`. -/
def fieldFunct (w : Word) : BitVec 6 := w.extractLsb' 0 6

/-- `bits[15:0]`, the field `imm16` of R82; its signed reading is the immediate. -/
def fieldImm (w : Word) : Imm := w.extractLsb' 0 16

/-- The instruction of a word with `opcode6 = 0`: format R by its function code (R84), or the one `NOP` word (R83). -/
def decodeFunct (w : Word) : Except Illegal Instr :=
  if fieldShamt w ≠ 0#5 then .error (.nonzeroShamt (fieldShamt w))
  else if fieldFunct w = 0x20#6 then .ok (.add (fieldRd w) (fieldRs w) (fieldRt w))
  else if fieldFunct w = 0x22#6 then .ok (.sub (fieldRd w) (fieldRs w) (fieldRt w))
  else if fieldFunct w = 0x24#6 then .ok (.and (fieldRd w) (fieldRs w) (fieldRt w))
  else if fieldFunct w = 0x25#6 then .ok (.or (fieldRd w) (fieldRs w) (fieldRt w))
  else if fieldFunct w = 0x2A#6 then .ok (.slt (fieldRd w) (fieldRs w) (fieldRt w))
  else if fieldFunct w = 0x00#6 then (if w = 0#32 then .ok .nop else .error .nopWithFields)
  else .error (.unknownFunct (fieldFunct w))

/-- The decoder of R88, total on words: the instruction of the row of R84 the word matches, or why it is illegal (R89). -/
def decode (w : Word) : Except Illegal Instr :=
  if fieldOpcode w = 0x00#6 then decodeFunct w
  else if fieldOpcode w = 0x08#6 then .ok (.addi (fieldRt w) (fieldRs w) (fieldImm w))
  else if fieldOpcode w = 0x0A#6 then .ok (.slti (fieldRt w) (fieldRs w) (fieldImm w))
  else if fieldOpcode w = 0x23#6 then .ok (.lw (fieldRt w) (fieldRs w) (fieldImm w))
  else if fieldOpcode w = 0x2B#6 then .ok (.sw (fieldRt w) (fieldRs w) (fieldImm w))
  else .error (.unknownOpcode (fieldOpcode w))

/-- A register index as a five-bit field (R81, R82). -/
def regBits (r : Reg) : BitVec 5 := BitVec.ofFin (w := 5) r

/-- A format R word: `opcode6 = 0`, `rs`, `rt`, `rd`, `shamt = 0`, `funct` (R81). -/
def encodeR (funct : BitVec 6) (rd rs rt : Reg) : Word :=
  0#6 ++ regBits rs ++ regBits rt ++ regBits rd ++ 0#5 ++ funct

/-- A format I word: `opcode6`, `rs`, `rt`, `imm16` (R82). -/
def encodeI (opcode6 : BitVec 6) (rt rs : Reg) (imm : Imm) : Word :=
  opcode6 ++ regBits rs ++ regBits rt ++ imm

/-- The encoding function `enc` of R85. -/
def encode : Instr → Word
  | .add rd rs rt => encodeR 0x20#6 rd rs rt
  | .sub rd rs rt => encodeR 0x22#6 rd rs rt
  | .and rd rs rt => encodeR 0x24#6 rd rs rt
  | .or rd rs rt => encodeR 0x25#6 rd rs rt
  | .slt rd rs rt => encodeR 0x2A#6 rd rs rt
  | .addi rt rs imm => encodeI 0x08#6 rt rs imm
  | .slti rt rs imm => encodeI 0x0A#6 rt rs imm
  | .lw rt rs imm => encodeI 0x23#6 rt rs imm
  | .sw rt rs imm => encodeI 0x2B#6 rt rs imm
  | .nop => 0#32

/-- A row of the opcode map of R84: word `w` is the instruction iff `w & mask = value`. -/
structure OpcodeRow where
  opcode : Opcode
  mask : Word
  value : Word
  deriving DecidableEq, Repr

/-- A word matches a row of the opcode map (R84). -/
abbrev OpcodeRow.Matches (row : OpcodeRow) (w : Word) : Prop := w &&& row.mask = row.value

/-- The opcode map, row for row the table of R84. The decoder does not read it: that the two agree is stated. -/
def opcodeMap : List OpcodeRow :=
  [⟨.add, 0xFC0007FF#32, 0x00000020#32⟩, ⟨.sub, 0xFC0007FF#32, 0x00000022#32⟩,
   ⟨.and, 0xFC0007FF#32, 0x00000024#32⟩, ⟨.or, 0xFC0007FF#32, 0x00000025#32⟩,
   ⟨.slt, 0xFC0007FF#32, 0x0000002A#32⟩, ⟨.addi, 0xFC000000#32, 0x20000000#32⟩,
   ⟨.slti, 0xFC000000#32, 0x28000000#32⟩, ⟨.lw, 0xFC000000#32, 0x8C000000#32⟩,
   ⟨.sw, 0xFC000000#32, 0xAC000000#32⟩, ⟨.nop, 0xFFFFFFFF#32, 0x00000000#32⟩]

/-- The instruction the decoder reads from a word given as the opcode table numbers its bits: bit 0 the least significant bit of
the one 32-bit word (R80). Bits at and above `nbits` are 0; more than one word is no instruction. -/
def decodeTableWord (nbits w : Nat) : Option Instr :=
  if nbits ≤ 32 then
    match decode (BitVec.ofNat 32 (w % 2 ^ nbits)) with
    | .ok i => some i
    | .error _ => none
  else none

end Sys2Proof
end

