-- ==== Sys2Proof/Machine/State.lean ====
section
/-! DEFINITION. The whole state of the datapath (10_state.md), plain data; the faults and refusals a step can end in; and the
state after reset (70_reset_and_hazards.md rules R270, R271). -/

namespace Sys2Proof.Machine

/-- The register file `x[0..31]` (R20). It is read and written through `readReg` and `writeReg` only. -/
abbrev Regs := Vector Word 32

/-- Data memory `DMEM` (R38): the words that are not 0, as (index `k`, `DMEM[k]`), in the canonical form `Mem.wf`. Words, not
bytes: a model must not expose a byte view (R60; log entry 3). -/
abbrev Mem := List (Nat × Word)

/-- The in-flight record (R31): an instruction with the fields computed so far. -/
structure InFlight where
  instr : Instr
  /-- The ALU result, or the loaded word of an `LW`. -/
  result : Option Word := none
  /-- The effective byte address of an `LW` or `SW`. -/
  address : Option Word := none
  /-- The word an `SW` will store. -/
  storeValue : Option Word := none
  deriving DecidableEq, Repr

/-- The value of an inter-stage latch (R31). `Bubble` differs from an in-flight `NOP` (R35, R203). -/
inductive Latch
  | bubble
  | inFlight (r : InFlight)
  deriving DecidableEq, Repr

/-- The two errors a cycle can raise (R240), each with the effective address that faulted (R242); also the value of the
`FAULT` register (R42). -/
inductive Fault
  /-- Raised by the Memory step for an `LW` or `SW` whose address is not a multiple of 4 (R56, R140). SAFE: the machine stops
  here as the spec's does. -/
  | unalignedMemoryAccess (a : Word)
  /-- Raised by the Memory step for an `LW` or `SW` whose aligned address is 4096 or more (R57, R140). SAFE: the machine stops
  here as the spec's does. -/
  | outOfRangeAddress (a : Word)
  deriving DecidableEq, Repr

/-- Why a step gives no meaning. -/
inductive Refusal
  /-- `exec` answers this for an instruction that has no meaning yet. SAFE. No arm of this model answers it. -/
  | notModelled (mnemonic : String)
  /-- The cycle answers this while `FAULT` is set: "`step()` and `run()` are refused" (R246, U4). SAFE: it is the spec's own. -/
  | faulted (f : Fault)
  /-- The forwarding unit answers this when the `LW` in `EX_MEM` that produces register `r` has not read its word (R123, U3). SAFE:
  no reset or loaded state reaches it (R111). -/
  | loadNotYetRead (r : Reg)
  /-- Write-Back or the forwarding unit answers this for a record without the `result` it needs (R34, U12). SAFE: unreachable. -/
  | absentResult
  /-- The Memory step answers this for an `LW` or `SW` without an `address` (R34, U12). SAFE: unreachable. -/
  | absentAddress
  /-- The Memory step answers this for an `SW` without a `store_value` (R34, U12). SAFE: unreachable. -/
  | absentStoreValue
  deriving DecidableEq, Repr

/-- The whole state of the datapath (10_state.md), with the program it runs (R40). -/
structure State where
  /-- `x[0..31]` (R20). -/
  x : Vector Word 32
  /-- `DMEM[0..1023]` (R38). -/
  dmem : List (Nat × Word)
  /-- `PC` (R26): the slot Fetch reads next. -/
  pc : Nat
  /-- `RETIRED` (R29). -/
  retired : Nat
  /-- `IF_ID`, `ID_EX`, `EX_MEM`, `MEM_WB` (R32). -/
  ifId : Latch
  idEx : Latch
  exMem : Latch
  memWb : Latch
  /-- `FAULT` (R42). -/
  fault : Option Fault
  /-- `PROG` (R40): written by `load` only. -/
  prog : List Instr
  deriving DecidableEq, Repr

/-- The state at power-on and after `reset()` with an empty program (R270, R271): nothing is left unspecified. -/
def State.reset : State where
  x := Vector.replicate 32 0#32
  dmem := []
  pc := 0
  retired := 0
  ifId := .bubble
  idEx := .bubble
  exMem := .bubble
  memWb := .bubble
  fault := none
  prog := []

end Sys2Proof.Machine
end

