-- ==== Sys2Proof/Machine/Ops.lean ====
section
/-! DEFINITION. The named operations over registers and data memory (10_state.md section 1, 20_memory.md), and raising an error
(60_exceptions.md rule R244), which is all of "taking an exception" this hardware has: no handler, no saved pc, no return (R253). -/

namespace Sys2Proof.Machine

/-- What a stage step or a cycle answers: a value, an error raised, or a refusal (R134). -/
abbrev Result (α : Type) := Host.Outcome α Fault Refusal

/-- Go on with the value, if there is one; a raise or a refusal ends the cycle at once (R244). -/
def Result.bind {α β : Type} (r : Result α) (k : α → Result β) : Result β :=
  match r with
  | .next a => k a
  | .fault f => .fault f
  | .refused q => .refused q

/-- `raise E(a)` (R244): the cycle ends with the fault, and with no state of its own. -/
def raise {α : Type} (f : Fault) : Result α := .fault f

/-- What a raised error does to the state: `FAULT := E`, every other element as before the cycle (R133, R244). The caller of
`step` records it (`hostStep`, R215). -/
def State.recordFault (s : State) (f : Fault) : State := { s with fault := some f }

/-- `x[i]` (R21): register 0 reads 0 always. -/
def readReg (x : Regs) (i : Reg) : Word :=
  if i = 0 then 0#32 else x[i.val]

/-- `x[i] <- v` (R22): discarded when `i = 0`. -/
def writeReg (x : Regs) (i : Reg) (v : Word) : Regs :=
  if i = 0 then x else x.set i.val v

/-- What a word of data memory that is not listed holds: the reset value 0 (R39, R271). -/
def Mem.unlisted : Word := 0#32

/-- The word `DMEM[k]`. -/
def Mem.read : Mem → Nat → Word
  | [], _ => Mem.unlisted
  | (j, v) :: m, k => if j = k then v else Mem.read m k

/-- `DMEM[k] := v`, every other word unchanged, in canonical form again: writing what an unlisted word holds removes the entry. -/
def Mem.write : Mem → Nat → Word → Mem
  | [], k, v => if v = Mem.unlisted then [] else [(k, v)]
  | (j, u) :: m, k, v =>
    if k < j then (if v = Mem.unlisted then (j, u) :: m else (k, v) :: (j, u) :: m)
    else if k = j then (if v = Mem.unlisted then m else (k, v) :: m)
    else (j, u) :: Mem.write m k v

/-- The canonical form from index `lo` on: indices strictly rising and below `DMEM_WORDS`, no word that an unlisted one holds. -/
def Mem.wfFrom : Nat → Mem → Bool
  | _, [] => true
  | lo, (j, v) :: m => decide (lo ≤ j) && decide (j < Config.dmemWords) && decide (v ≠ Mem.unlisted) && Mem.wfFrom (j + 1) m

/-- Data memory is in canonical form. -/
def Mem.wf (m : Mem) : Bool := Mem.wfFrom 0 m

/-- A byte address is aligned: a multiple of 4 (R52). -/
def aligned (a : Word) : Bool := decide (a.toNat % Config.wordBytes = 0)

/-- A byte address is in range: below `WORD_BYTES * DMEM_WORDS` in its unsigned reading (R53). -/
def inRange (a : Word) : Bool := decide (a.toNat < Config.wordBytes * Config.dmemWords)

/-- The index of the word a byte address selects: `u(a) / 4` (R53). -/
def wordIndex (a : Word) : Nat := a.toNat / Config.wordBytes

/-- The error an access to the address raises, alignment first (R56, R57, R140, R191). -/
def addressFault (a : Word) : Option Fault :=
  if !aligned a then some (.unalignedMemoryAccess a)
  else if !inRange a then some (.outOfRangeAddress a)
  else none

/-- `MemRead(a, 4)` (R54), for an aligned address in range. -/
def memRead (m : Mem) (a : Word) : Word := Mem.read m (wordIndex a)

/-- `MemWrite(a, 4, v)` (R55), for an aligned address in range. -/
def memWrite (m : Mem) (a : Word) (v : Word) : Mem := Mem.write m (wordIndex a) v

/-- Make the access unless its address is at fault (R140). -/
def checked {α : Type} (a : Word) (k : Result α) : Result α :=
  match addressFault a with
  | some f => raise f
  | none => k

end Sys2Proof.Machine
end

