-- ==== Sys2Proof/Machine/Operands.lean ====
section
/-! DEFINITION. Operand roles (30_encoding.md rules R76 to R78), the immediate operand, the effective address, and the forwarding
unit (42_forwarding_unit.md), which resolves every register operand. -/

namespace Sys2Proof.Machine

/-- `dest(i)` (R76): the register the instruction writes. -/
def dest : Instr → Option Reg
  | .add rd _ _ => some rd
  | .sub rd _ _ => some rd
  | .and rd _ _ => some rd
  | .or rd _ _ => some rd
  | .slt rd _ _ => some rd
  | .addi rt _ _ => some rt
  | .slti rt _ _ => some rt
  | .lw rt _ _ => some rt
  | .sw _ _ _ => none
  | .nop => none

/-- `srcs(i)` (R77): the registers whose values Execute reads. -/
def srcs : Instr → List Reg
  | .add _ rs rt => [rs, rt]
  | .sub _ rs rt => [rs, rt]
  | .and _ rs rt => [rs, rt]
  | .or _ rs rt => [rs, rt]
  | .slt _ rs rt => [rs, rt]
  | .addi _ rs _ => [rs]
  | .slti _ rs _ => [rs]
  | .lw _ rs _ => [rs]
  | .sw rt rs _ => [rs, rt]
  | .nop => []

/-- `writes_reg(i)` (R78). -/
def writesReg (i : Instr) : Bool := (dest i).isSome

/-- The destination of an `LW`, and of no other opcode: what the hazard detector looks for in Execute (R101, R104). -/
def loadDest : Instr → Option Reg
  | .lw rt _ _ => some rt
  | .add _ _ _ => none
  | .sub _ _ _ => none
  | .and _ _ _ => none
  | .or _ _ _ => none
  | .slt _ _ _ => none
  | .addi _ _ _ => none
  | .slti _ _ _ => none
  | .sw _ _ _ => none
  | .nop => none

/-- `sext_32(imm)` (R11, R74): the immediate as the datapath computes with it. -/
def sext (imm : Imm) : Word := imm.signExtend 32

/-- The effective byte address: base plus sign-extended displacement, modulo 2^32 (R146, R190). -/
def effectiveAddress (base : Word) (imm : Imm) : Word := base + sext imm

/-- The record in a latch whose instruction has destination `r`, if there is one: `SW`, `NOP` and `Bubble` never match (R116, R124). -/
def producerOf (l : Latch) (r : Reg) : Option InFlight :=
  match l with
  | .bubble => none
  | .inFlight p => if dest p.instr = some r then some p else none

/-- What a producer in `EX_MEM` forwards (R118). An `LW` there has no word yet (R123): refused, never a stale value. -/
def forwardedFromExMem (p : InFlight) (r : Reg) : Result Word :=
  match p.result with
  | some v => .next v
  | none => match loadDest p.instr with
    | some _ => .refused (.loadNotYetRead r)
    | none => .refused .absentResult

/-- What a producer in `MEM_WB` forwards: the loaded word of an `LW`, the ALU result of the others (R119). -/
def forwardedFromMemWb (q : InFlight) : Result Word :=
  match q.result with
  | some w => .next w
  | none => .refused .absentResult

/-- `Fwd(r)` (R116), highest priority first: register 0, `EX_MEM`, `MEM_WB`, the register file `x`, which is the one this cycle's
Write-Back leaves (R121). -/
def forward (x : Regs) (exMem memWb : Latch) (r : Reg) : Result Word :=
  if r = 0 then .next 0#32
  else match producerOf exMem r with
    | some p => forwardedFromExMem p r
    | none => match producerOf memWb r with
      | some q => forwardedFromMemWb q
      | none => .next (readReg x r)

end Sys2Proof.Machine
end

