-- ==== Sys2Proof/Machine/Flags.lean ====
section
/-! DEFINITION. There are no condition codes, status flags, carry or overflow bits (10_state.md rule R43), so no flag is computed
anywhere. What the spec computes instead of a flag is the truth value `SLT` and `SLTI` write to a register. -/

namespace Sys2Proof.Machine

/-- The word 1 if `s(a) < s(b)`, else the word 0 (R175, R182): an exact signed comparison, not the sign of a wrapped difference. -/
def setLess (a b : Word) : Word := if a.toInt < b.toInt then 1#32 else 0#32

end Sys2Proof.Machine
end

