-- ==== Sys2Proof/Machine/Cycle.lean ====
section
/-! DEFINITION. The cycle (43_pipeline_engine.md rules R130 to R152): the five stage steps on pre-cycle values, the load-use hazard
detector (41_hazard_detector.md), and the atomic publication of what they computed. Execute is given from outside, by the meaning
of the instruction it consumes: `Sys2Proof.Machine.exec`. -/

namespace Sys2Proof.Machine

/-- What the hazard detector returns (R100). -/
inductive HazardDecision
  | stall
  | proceed
  deriving DecidableEq, Repr

/-- `Hazard(IF_ID, ID_EX)` (R101): `Stall` when the instruction in Execute is an `LW` whose non-zero destination the instruction in
Decode reads. Both inputs are pre-cycle values (R102, C1). -/
def hazard (ifId idEx : Latch) : HazardDecision :=
  match ifId, idEx with
  | .inFlight c, .inFlight p =>
    match loadDest p.instr with
    | some rt => if rt ≠ 0 ∧ rt ∈ srcs c.instr then .stall else .proceed
    | none => .proceed
  | .inFlight _, .bubble => .proceed
  | .bubble, .inFlight _ => .proceed
  | .bubble, .bubble => .proceed

/-- The stall flag of the cycle about to be made (R46, R222, D25). -/
def stallFlag (s : State) : Bool := decide (hazard s.ifId s.idEx = .stall)

/-- The register write of Write-Back (R136): `x[d] <- result`, discarded when `d = 0`. -/
def commit (q : InFlight) (x : Regs) : Result Regs :=
  match dest q.instr with
  | none => .next x
  | some d =>
    if d = 0 then .next x
    else match q.result with
      | some w => .next (writeReg x d w)
      | none => .refused .absentResult

/-- What a record in `MEM_WB` adds to `RETIRED` (R137): 1, but 0 for a `NOP` (C2). -/
def retireCount (q : InFlight) : Nat := if q.instr = .nop then 0 else 1

/-- The Write-Back step (R135 to R138): the register file and the retire count it leaves. -/
def writeBackStage (s : State) : Result (Regs × Nat) :=
  match s.memWb with
  | .bubble => .next (s.x, s.retired)
  | .inFlight q => (commit q s.x).bind fun x' => .next (x', s.retired + retireCount q)

/-- What an instruction does in the Memory step (R139). -/
inductive MemAccess
  | load
  | store
  | pass
  deriving DecidableEq, Repr

/-- Only `LW` reads and only `SW` writes data memory (R139). -/
def memAccess : Instr → MemAccess
  | .lw _ _ _ => .load
  | .sw _ _ _ => .store
  | .add _ _ _ => .pass
  | .sub _ _ _ => .pass
  | .and _ _ _ => .pass
  | .or _ _ _ => .pass
  | .slt _ _ _ => .pass
  | .addi _ _ _ => .pass
  | .slti _ _ _ => .pass
  | .nop => .pass

/-- `LW` in Memory (R141): the word read goes into `result`; data memory is unchanged. -/
def loadInMemory (m : Mem) (p : InFlight) : Result (Mem × Latch) :=
  match p.address with
  | none => .refused .absentAddress
  | some a => checked a (.next (m, .inFlight { p with result := some (memRead m a) }))

/-- `SW` in Memory (R142): the word resolved in Execute is written; the record is unchanged. -/
def storeInMemory (m : Mem) (p : InFlight) : Result (Mem × Latch) :=
  match p.address with
  | none => .refused .absentAddress
  | some a => checked a (match p.storeValue with
    | none => .refused .absentStoreValue
    | some v => .next (memWrite m a v, .inFlight p))

/-- The Memory step (R139 to R142): the data memory and the `MEM_WB` it produces, or the error it raises (R140). -/
def memoryStage (s : State) : Result (Mem × Latch) :=
  match s.exMem with
  | .bubble => .next (s.dmem, .bubble)
  | .inFlight p =>
    match memAccess p.instr with
    | .load => loadInMemory s.dmem p
    | .store => storeInMemory s.dmem p
    | .pass => .next (s.dmem, .inFlight p)

/-- The error this cycle's Memory step raises, if it raises one (R140, R243). -/
def pendingFault (s : State) : Option Fault :=
  match memoryStage s with
  | .fault f => some f
  | .next _ => none
  | .refused _ => none

/-- The Decode step (R147, R148): the `ID_EX` it produces. -/
def decodeStage (s : State) : Latch :=
  match hazard s.ifId s.idEx with
  | .stall => .bubble
  | .proceed => s.ifId

/-- A record fresh from Fetch, no field computed (R150). -/
def InFlight.fetched (i : Instr) : InFlight := { instr := i }

/-- The Fetch step (R68, R150, R151): the `IF_ID` and the `PC` it produces. Past the end it supplies a `Bubble`. -/
def fetchStage (s : State) : Latch × Nat :=
  match hazard s.ifId s.idEx with
  | .stall => (s.ifId, s.pc)
  | .proceed => match s.prog[s.pc]? with
    | some i => (.inFlight (.fetched i), s.pc + 1)
    | none => (.bubble, s.pc)

/-- The state published at the end of a cycle that does not fault (R133): all new values together. -/
def publish (s : State) (x' : Regs) (retired' : Nat) (dmem' : Mem) (memWb' exMem' : Latch) : State where
  x := x'
  dmem := dmem'
  pc := (fetchStage s).2
  retired := retired'
  ifId := (fetchStage s).1
  idEx := decodeStage s
  exMem := exMem'
  memWb := memWb'
  fault := none
  prog := s.prog

/-- The cycle as one function (R152), given what Execute makes of the register file Write-Back leaves: Write-Back, Memory, Execute,
then Decode and Fetch in the publication. Refused while `FAULT` is set (R246). -/
def cycleWith (execute : Regs → Result Latch) (s : State) : Result State :=
  match s.fault with
  | some f => .refused (.faulted f)
  | none =>
    (writeBackStage s).bind fun wb =>
    (memoryStage s).bind fun mem =>
    (execute wb.1).bind fun exMem' =>
    .next (publish s wb.1 wb.2 mem.1 mem.2 exMem')

/-- The record Execute consumes when the instruction in it is `i`: the one `ID_EX` holds, or, in a state whose `ID_EX` holds no
record of `i`, a fresh one (log entry 1; `step` never asks for that). -/
def recordInExecute (i : Instr) (s : State) : InFlight :=
  match s.idEx with
  | .bubble => .fetched i
  | .inFlight r => if r.instr = i then r else .fetched i

/-- The state with `i` in `ID_EX`: itself, when `ID_EX` holds a record of `i`. -/
def State.issued (s : State) (i : Instr) : State := { s with idEx := .inFlight (recordInExecute i s) }

/-- The cycle in which Execute consumes `i`: `fill` computes the fields Execute sets, from the register file Write-Back leaves, the
pre-cycle state and the record (R143). -/
def executeCycle (i : Instr) (fill : Regs → State → InFlight → Result InFlight) (s : State) : Result State :=
  cycleWith (fun x => (fill x s (recordInExecute i s)).bind fun r => .next (.inFlight r)) (s.issued i)

/-- The cycle in which Execute consumes a `Bubble` (R143). -/
def bubbleCycle (s : State) : Result State := cycleWith (fun _ => .next .bubble) s

/-- A register operand of the instruction in Execute, resolved by the forwarding unit against the pre-cycle latches (R115, R143). -/
def operand (x : Regs) (s : State) (r : Reg) : Result Word := forward x s.exMem s.memWb r

/-- Execute for two register operands and a result (R144). -/
def executeAluRegister (i : Instr) (alu : Word → Word → Word) (rs rt : Reg) (s : State) : Result State :=
  executeCycle i (fun x s r =>
    (operand x s rs).bind fun a =>
    (operand x s rt).bind fun b =>
    .next { r with result := some (alu a b) }) s

/-- Execute for a register operand, a sign-extended immediate and a result (R145). -/
def executeAluImmediate (i : Instr) (alu : Word → Word → Word) (rs : Reg) (imm : Imm) (s : State) : Result State :=
  executeCycle i (fun x s r =>
    (operand x s rs).bind fun a =>
    .next { r with result := some (alu a (sext imm)) }) s

/-- One step of the engine: the cycle in which Execute consumes what `ID_EX` holds (R143, R152), `run` being the meaning of an
instruction. -/
def stepWith (run : Instr → State → Result State) (s : State) : Result State :=
  match s.idEx with
  | .bubble => bubbleCycle s
  | .inFlight r => run r.instr s

/-- The state part of `load` (R211): `PC`, latches, `RETIRED` and `FAULT` at their values, `PROG` the new program. -/
def State.loaded (s : State) (prog : List Instr) : State :=
  { s with
    prog := prog, pc := 0, retired := 0, fault := none
    ifId := .bubble, idEx := .bubble, exMem := .bubble, memWb := .bubble }

/-- The state two cycles after loading the one-instruction program `i`: fetched, decoded, in `ID_EX`, so that the next cycle executes
it (R150, R147; log entry 2). -/
def State.loadedAndDecoded (s : State) (i : Instr) : State :=
  { s.loaded [i] with pc := 1, idEx := .inFlight (.fetched i) }

end Sys2Proof.Machine
end

