-- ==== Sys2Proof/Machine/AluRegister.lean ====
section
/-! DEFINITION. The register-register instructions `ADD SUB AND OR SLT` (44_alu_register.md). Each meaning is the cycle in which
Execute consumes the instruction; Memory passes its record on, and Write-Back commits and counts it, in the two cycles after. -/

namespace Sys2Proof.Machine

/-- The ALU operation of `ADD` (R171): the sum modulo 2^32, no overflow detected (R170). -/
def aluAdd (a b : Word) : Word := a + b

/-- The ALU operation of `SUB` (R172): first source minus second, modulo 2^32. -/
def aluSub (a b : Word) : Word := a - b

/-- The ALU operation of `AND` (R173), bit by bit. -/
def aluAnd (a b : Word) : Word := a &&& b

/-- The ALU operation of `OR` (R174), bit by bit. -/
def aluOr (a b : Word) : Word := a ||| b

/-- `ADD rd, rs, rt` in Execute (R144, R171). -/
def execAdd (rd rs rt : Reg) (s : State) : Result State := executeAluRegister (.add rd rs rt) aluAdd rs rt s

/-- `SUB rd, rs, rt` in Execute (R144, R172). -/
def execSub (rd rs rt : Reg) (s : State) : Result State := executeAluRegister (.sub rd rs rt) aluSub rs rt s

/-- `AND rd, rs, rt` in Execute (R144, R173). -/
def execAnd (rd rs rt : Reg) (s : State) : Result State := executeAluRegister (.and rd rs rt) aluAnd rs rt s

/-- `OR rd, rs, rt` in Execute (R144, R174). -/
def execOr (rd rs rt : Reg) (s : State) : Result State := executeAluRegister (.or rd rs rt) aluOr rs rt s

/-- `SLT rd, rs, rt` in Execute (R144, R175). -/
def execSlt (rd rs rt : Reg) (s : State) : Result State := executeAluRegister (.slt rd rs rt) setLess rs rt s

end Sys2Proof.Machine
end

