-- ==== Sys2Proof/Machine/AluImmediate.lean ====
section
/-! DEFINITION. The immediate instructions `ADDI SLTI` (45_alu_immediate.md): "same with an immediate operand", sign-extended and
never forwarded (R180). -/

namespace Sys2Proof.Machine

/-- `ADDI rt, rs, imm` in Execute (R145, R181). -/
def execAddi (rt rs : Reg) (imm : Imm) (s : State) : Result State := executeAluImmediate (.addi rt rs imm) aluAdd rs imm s

/-- `SLTI rt, rs, imm` in Execute (R145, R182). -/
def execSlti (rt rs : Reg) (imm : Imm) (s : State) : Result State := executeAluImmediate (.slti rt rs imm) setLess rs imm s

end Sys2Proof.Machine
end

