-- ==== Sys2Proof/Machine/LoadStore.lean ====
section
/-! DEFINITION. `LW` and `SW` (46_load_store.md). Execute computes the address, and for `SW` resolves the word to store; the access
and its checks are the Memory step's of the next cycle: `loadInMemory`, `storeInMemory`. -/

namespace Sys2Proof.Machine

/-- `LW rt, imm(rs)` in Execute (R146, R192): `address := Fwd(rs) +32 sext_32(imm)`; `result` stays as it is; `rt` is not read. -/
def execLw (rt rs : Reg) (imm : Imm) (s : State) : Result State :=
  executeCycle (.lw rt rs imm) (fun x s r =>
    (operand x s rs).bind fun a =>
    .next { r with address := some (effectiveAddress a imm) }) s

/-- `SW rt, imm(rs)` in Execute (R146, R193): `address := Fwd(rs) +32 sext_32(imm)`, `store_value := Fwd(rt)`. -/
def execSw (rt rs : Reg) (imm : Imm) (s : State) : Result State :=
  executeCycle (.sw rt rs imm) (fun x s r =>
    (operand x s rs).bind fun a =>
    (operand x s rt).bind fun v =>
    .next { r with address := some (effectiveAddress a imm), storeValue := some v }) s

end Sys2Proof.Machine
end

