-- ==== Sys2Proof/Machine/Nop.lean ====
section
/-! DEFINITION. `NOP` (47_nop_bubble.md): it passes through Execute with no field set (R143, R200). -/

namespace Sys2Proof.Machine

/-- `NOP` in Execute (R143, R200): `EX_MEM' = ID_EX`. -/
def execNop (s : State) : Result State := executeCycle .nop (fun _ _ r => .next r) s

end Sys2Proof.Machine
end

