-- ==== Sys2Proof/Machine/Step.lean ====
section
/-! DEFINITION. One step of the machine, which is one cycle (43_pipeline_engine.md rule R130), and the placing of one instruction so
that the next step executes it. -/

namespace Sys2Proof.Machine

/-- One cycle (R130, R152): the instruction `ID_EX` holds is executed, or a `Bubble` is. -/
def step (s : State) : Host.Outcome State Fault Refusal := stepWith exec s

/-- The state in which the very next `step` executes the instruction whose word is `w`: the state two cycles after `load` of that one
word (R213). An illegal word is refused by `load` and changes nothing. -/
def State.withFetchWord (s : State) (nbits w : Nat) : State :=
  match decodeTableWord nbits w with
  | some i => s.loadedAndDecoded i
  | none => s

end Sys2Proof.Machine
end

