-- ==== Sys2Proof/Machine/Loader.lean ====
section
/-! DEFINITION. What `load` makes of what it is given (48_host_interface.md rules R212, R213): records or words become the program's
instructions, or the first slot that fails names the error. -/

namespace Sys2Proof.Machine

/-- The two errors of `load` (R240), each with the slot of the first offending instruction (R242). -/
inductive LoadError
  | malformedInstruction (slot : Nat)
  | outOfRangeRegister (slot : Nat)
  deriving DecidableEq, Repr

/-- A record's error kind, at its slot. -/
def loadErrorAt (k : Nat) : RecordError → LoadError
  | .malformedInstruction => .malformedInstruction k
  | .outOfRangeRegister => .outOfRangeRegister k

/-- The register a present field in range names. -/
def regOfField (f : Option Int) : Reg := Fin.ofNat 32 (f.getD 0).toNat

/-- The immediate a present field in range gives (R74). -/
def immOfField (f : Option Int) : Imm := BitVec.ofInt 16 (f.getD 0)

/-- The instruction a well-formed record is: its required fields, the others ignored (R75). -/
def instrOfRecord (r : Record) : Instr :=
  match r.opcode with
  | .add => .add (regOfField r.rd) (regOfField r.rs) (regOfField r.rt)
  | .sub => .sub (regOfField r.rd) (regOfField r.rs) (regOfField r.rt)
  | .and => .and (regOfField r.rd) (regOfField r.rs) (regOfField r.rt)
  | .or => .or (regOfField r.rd) (regOfField r.rs) (regOfField r.rt)
  | .slt => .slt (regOfField r.rd) (regOfField r.rs) (regOfField r.rt)
  | .addi => .addi (regOfField r.rt) (regOfField r.rs) (immOfField r.imm)
  | .slti => .slti (regOfField r.rt) (regOfField r.rs) (immOfField r.imm)
  | .lw => .lw (regOfField r.rt) (regOfField r.rs) (immOfField r.imm)
  | .sw => .sw (regOfField r.rt) (regOfField r.rs) (immOfField r.imm)
  | .nop => .nop

/-- The checks of R75 in the order (a), (b), (c), the first failing one naming the error; then the instruction. -/
def resolve (r : Record) : Except RecordError Instr :=
  if r.fieldsPresent = false then .error .malformedInstruction
  else if r.registersInRange = false then .error .outOfRangeRegister
  else if r.immInRange = false then .error .malformedInstruction
  else .ok (instrOfRecord r)

/-- A word's instruction, or `MalformedInstruction` if it is illegal (R89, R213). -/
def resolveWord (w : Word) : Except RecordError Instr :=
  match decode w with
  | .ok i => .ok i
  | .error _ => .error .malformedInstruction

/-- The program from slot `k` on, in slot order, stopping at the first slot that fails (R212); a slot at or past `PROG_MAX` is
malformed (R212, log entry 9). -/
def resolveFrom {α : Type} (res : α → Except RecordError Instr) : Nat → List α → Except LoadError (List Instr)
  | _, [] => .ok []
  | k, a :: as =>
    if Config.progMax ≤ k then .error (.malformedInstruction k)
    else match res a with
      | .error e => .error (loadErrorAt k e)
      | .ok i => match resolveFrom res (k + 1) as with
        | .error e => .error e
        | .ok is => .ok (i :: is)

/-- The program of a sequence of records (R212). -/
def resolveRecords (rs : List Record) : Except LoadError (List Instr) := resolveFrom resolve 0 rs

/-- The program of a sequence of words (R213). -/
def resolveWords (ws : List Word) : Except LoadError (List Instr) := resolveFrom resolveWord 0 ws

end Sys2Proof.Machine
end

