-- ==== Sys2Proof/Machine/HostInterface.lean ====
section
/-! DEFINITION. What the host can do at a cycle boundary (48_host_interface.md): `load` of records or words, `step`, `run`, `reset`,
`poke_reg`, `poke_mem`, each a function from a published state to a published state and a reply; the snapshot; the fault codes. -/

namespace Sys2Proof.Machine

/-- `reset()` (R218, R219, R270): everything at its reset value but the program, which is kept. -/
def State.afterReset (s : State) : State := { State.reset with prog := s.prog }

/-- What a successful `load` leaves (R211, R214): the program replaced, the pipeline empty; registers and data memory kept, or
zeroed when `clearsArch`, the parameter `LOAD_CLEARS_ARCH`, is true. -/
def State.afterLoad (clearsArch : Bool) (s : State) (prog : List Instr) : State :=
  if clearsArch then State.reset.loaded prog else s.loaded prog

/-- The fault code of R241 in a state: 0 none, 2 UnalignedMemoryAccess, 4 OutOfRangeAddress. -/
def faultCode : Option Fault → BitVec 3
  | none => 0#3
  | some (.unalignedMemoryAccess _) => 2#3
  | some (.outOfRangeAddress _) => 4#3

/-- The address field of the `FAULT` register (R44, R242): the faulting effective address, 0 when there is none. -/
def faultAddr : Option Fault → Word
  | none => 0#32
  | some (.unalignedMemoryAccess a) => a
  | some (.outOfRangeAddress a) => a

/-- The code of a `load` error (R241): 1 MalformedInstruction, 3 OutOfRangeRegister; never in a state. -/
def loadErrorCode : LoadError → BitVec 3
  | .malformedInstruction _ => 1#3
  | .outOfRangeRegister _ => 3#3

/-- The state elements of the snapshot (R222): the whole published state but the program. -/
structure Published where
  pc : Nat
  ifId : Latch
  idEx : Latch
  exMem : Latch
  memWb : Latch
  x : Regs
  dmem : Mem
  retired : Nat
  fault : Option Fault
  deriving DecidableEq, Repr

/-- The snapshot (R222): the published state elements, and the stall flag of the cycle just made. The flag is no state element: it is
a result of that one cycle, and is latched nowhere (R46). -/
structure Snapshot extends Published where
  stall : Bool
  deriving DecidableEq, Repr

/-- The published elements of a state (R222). -/
def State.published (s : State) : Published where
  pc := s.pc
  ifId := s.ifId
  idEx := s.idEx
  exMem := s.exMem
  memWb := s.memWb
  x := s.x
  dmem := s.dmem
  retired := s.retired
  fault := s.fault

/-- The snapshot of a state after a cycle whose stall flag was `stall` (R222, R224). -/
def State.snapshot (s : State) (stall : Bool) : Snapshot := { s.published with stall := stall }

/-- What a host operation answers. The shape of the replies is the model's, DESIGN CHOICE (log entry 13). -/
inductive HostReply
  /-- It was carried out (`load`, `reset`, `poke`). -/
  | done
  /-- `load` refused the program (R212, R247). -/
  | loadError (e : LoadError)
  /-- `step` made its cycle (R215). -/
  | stepped (snap : Snapshot)
  /-- `run` made all its cycles (R216), `n` of them; the snapshot is that of the last. -/
  | ran (n : Nat) (snap : Snapshot)
  /-- A cycle faulted after `n` completed ones (R215, R216). -/
  | faulted (n : Nat) (f : Fault)
  /-- `step` or `run` was refused: `FAULT` was set, or the state is one no run reaches (R246, U12). -/
  | refused (q : Refusal)
  /-- `run` with a count that is not positive (R216), or `poke` with an index out of range (R220). -/
  | badArgument
  deriving DecidableEq, Repr

/-- `step()` (R215): one cycle; a fault sets `FAULT` and leaves all other state as before; a refusal changes nothing. -/
def hostStep (s : State) : State × HostReply :=
  match step s with
  | .next t => (t, .stepped (t.snapshot (stallFlag s)))
  | .fault f => (s.recordFault f, .faulted 0 f)
  | .refused q => (s, .refused q)

/-- The loop of `run` (R216): `done` cycles are made and `more` are left; `last` is the snapshot of the last one made. -/
def runFrom (done : Nat) (last : Snapshot) (s : State) : Nat → State × HostReply
  | 0 => (s, .ran done last)
  | more + 1 =>
    match step s with
    | .next t => runFrom (done + 1) (t.snapshot (stallFlag s)) t more
    | .fault f => (s.recordFault f, .faulted done f)
    | .refused q => (s, .refused q)

/-- `run(cycles)` (R216): `step` exactly `cycles` times, a positive number; a fault ends it with the number of cycles completed. With
`FAULT` set every count, a bad one too, is answered with the recorded fault, which is what U4 says a `run` returns there (R246); a count
that is not positive is answered `badArgument` otherwise. DEDUCED: the spec refuses `run(n)`, `n ≤ 0`, with `FAULT` set twice over and
does not say which refusal is named (log entry 14). The first snapshot is never answered: at least one cycle is made. -/
def hostRun (cycles : Int) (s : State) : State × HostReply :=
  match s.fault with
  | some f => (s, .refused (.faulted f))
  | none => if cycles ≤ 0 then (s, .badArgument) else runFrom 0 (s.snapshot false) s cycles.toNat

/-- `load` of an already resolved program, or of the error that resolving it gave (R211, R212). -/
def hostLoad (clearsArch : Bool) (resolved : Except LoadError (List Instr)) (s : State) : State × HostReply :=
  match resolved with
  | .error e => (s, .loadError e)
  | .ok prog => (s.afterLoad clearsArch prog, .done)

/-- A poke: refused while `FAULT` is set, since "after a fault only `reset` and `load` are accepted" (R225, R246; log entry 10), and that refusal is
the one named when its index is bad as well (log entry 14); refused with no change when its index is out of range (R220); accepted with instructions in flight, where R220 is well defined (R221, U7). -/
def poked (inRange : Bool) (s t : State) : State × HostReply :=
  match s.fault with
  | some f => (s, .refused (.faulted f))
  | none => if inRange then (t, .done) else (s, .badArgument)

/-- `poke_reg(i, v)` (R220): nothing for register 0; the range is `0 .. NREGS-1`. -/
def pokeReg (i : Int) (v : Word) (s : State) : State × HostReply :=
  poked (decide (0 ≤ i ∧ i < Config.nregs)) s { s with x := writeReg s.x (Fin.ofNat 32 i.toNat) v }

/-- `poke_mem(k, v)` (R220): the range is `0 .. DMEM_WORDS-1`. -/
def pokeMem (k : Int) (v : Word) (s : State) : State × HostReply :=
  poked (decide (0 ≤ k ∧ k < Config.dmemWords)) s { s with dmem := Mem.write s.dmem k.toNat v }

/-- The operations the host has (R210 to R221). -/
inductive HostOp
  | load (records : List Record)
  | loadWords (words : List Word)
  | step
  | run (cycles : Int)
  | reset
  | pokeReg (i : Int) (v : Word)
  | pokeMem (k : Int) (v : Word)
  deriving DecidableEq, Repr

/-- One host operation, atomic with respect to cycles (R210), with the parameter `LOAD_CLEARS_ARCH` given. -/
def hostCallWith (clearsArch : Bool) (op : HostOp) (s : State) : State × HostReply :=
  match op with
  | .load rs => hostLoad clearsArch (resolveRecords rs) s
  | .loadWords ws => hostLoad clearsArch (resolveWords ws) s
  | .step => hostStep s
  | .run cycles => hostRun cycles s
  | .reset => (s.afterReset, .done)
  | .pokeReg i v => pokeReg i v s
  | .pokeMem k v => pokeMem k v s

/-- One host operation, with `LOAD_CLEARS_ARCH` at its default. -/
def hostCall (op : HostOp) (s : State) : State × HostReply := hostCallWith Config.loadClearsArch op s

/-- The state a sequence of host operations leaves. -/
def hostCalls (clearsArch : Bool) : List HostOp → State → State
  | [], s => s
  | op :: ops, s => hostCalls clearsArch ops (hostCallWith clearsArch op s).1

end Sys2Proof.Machine
end

