-- ==== Sys2Proof/Machine/Ports.lean ====
section
/-! DEFINITION. The port-level view of 48_host_interface.md rules R230 to R232, "this spec's own choice" (D18): what one rising edge of
`clk` does, given the inputs sampled at it, and what the outputs show. No other file depends on it. -/

namespace Sys2Proof.Machine

/-- The inputs sampled at a rising edge of `clk` (R230). `instrStore` is the instruction store the host has written, as `prog_load`
finds it; `imemData` and `imemLen` are what the store answers to `imem_addr`. -/
structure PortIn where
  rst : Bool := false
  stepEn : Bool := false
  progLoad : Bool := false
  instrStore : List Word := []
  imemData : Word := 0#32
  imemLen : BitVec 32 := 0#32
  pokeReg : Option (Reg × Word) := none
  pokeMem : Option (Fin 1024 × Word) := none
  deriving DecidableEq, Repr

/-- The outputs, continuously visible (R230). `snap` is every state element of R222; the flag of the cycle just made is none (R46), and
`stall` is the port for the cycle about to be made. -/
structure PortOut where
  imemAddr : BitVec 32
  snap : Published
  stall : Bool
  fault : BitVec 3
  faultAddr : Word
  deriving DecidableEq, Repr

/-- The outputs of a state (R230): `stall` is that of the cycle about to be made. -/
def portOut (s : State) : PortOut where
  imemAddr := BitVec.ofNat 32 s.pc
  snap := s.published
  stall := stallFlag s
  fault := faultCode s.fault
  faultAddr := faultAddr s.fault

/-- The instruction store answers as the loaded program does: its length, and, inside it, a word of the instruction at `PC` (R230). -/
def storeAnswers (p : PortIn) (s : State) : Bool :=
  decide (p.imemLen.toNat = s.prog.length) &&
  match s.prog[s.pc]? with
  | none => true
  | some i => decide (resolveWord p.imemData = .ok i)

/-- The register write port, by itself (R220, R230). -/
def portPokeReg (p : PortIn) (s : State) : State :=
  match p.pokeReg with
  | none => s
  | some (i, v) => (pokeReg i.val v s).1

/-- The memory write port, by itself (R220, R230). -/
def portPokeMem (p : PortIn) (s : State) : State :=
  match p.pokeMem with
  | none => s
  | some (k, v) => (pokeMem k.val v s).1

/-- The write ports: honoured only when `step_en = 0` (R230), and without effect while `FAULT` is set, as `pokeReg` and `pokeMem` are
(log entry 10). -/
def portPoke (p : PortIn) (s : State) : State := if p.stepEn then s else portPokeMem p (portPokeReg p s)

/-- One edge with `step_en = 1`: a cycle. A non-zero fault code freezes the state against it, whatever the instruction store holds (R230,
R246); no answer where a cycle would fetch from a store that is not the loaded program. -/
def portStep (p : PortIn) (s : State) : Option State :=
  match s.fault with
  | some _ => some s
  | none => if storeAnswers p s then some (hostStep s).1 else none

/-- One edge with `prog_load`: the state part of `load`, on a store the host has validated (R230, R232). -/
def portLoad (p : PortIn) (s : State) : Option State :=
  match resolveWords p.instrStore with
  | .ok prog => some (s.loaded prog)
  | .error _ => none

/-- `prog_load` together with another input that would also act, where the outcome depends on which goes first and R230 orders no
priority: with `FAULT` none a step, with `FAULT` set a poke (log entry 11). With `FAULT` none a poke and a load commute, "in either
order" (R214); with `FAULT` set `step_en` does nothing (R230). -/
def loadCompetes (p : PortIn) (s : State) : Bool :=
  match s.fault with
  | none => p.stepEn
  | some _ => !p.stepEn && (p.pokeReg.isSome || p.pokeMem.isSome)

/-- One rising edge of `clk` (R230, R231): `rst` has the highest priority; with no input asserted the state holds. No answer where the
host breaks its duty (a store that is not the loaded program, or not validated), or where the spec orders no priority between
`prog_load` and another input that acts (log entry 11). -/
def portEdge (p : PortIn) (s : State) : Option State :=
  if p.rst then some s.afterReset
  else if p.progLoad then (if loadCompetes p s then none else portLoad p (portPoke p s))
  else if p.stepEn then portStep p s
  else some (portPoke p s)

end Sys2Proof.Machine
end

