-- ==== Sys2Proof/Machine/Sequential.lean ====
section
/-! DEFINITION. The sequential meaning of a program, to which the pipeline is held (43_pipeline_engine.md rules R157 and R160): the
per-instruction rules of 44 to 47 read without the pipeline, over the same ALU, address and memory operations. -/

namespace Sys2Proof.Machine

/-- The architectural state (R15, R157): registers and data memory. -/
structure Arch where
  x : Regs
  dmem : Mem
  deriving DecidableEq, Repr

/-- The architectural part of a state. -/
def State.arch (s : State) : Arch := { x := s.x, dmem := s.dmem }

/-- `check(a)` of R157, then what follows it. -/
def seqChecked (a : Word) (A : Arch) : Except Fault Arch :=
  match addressFault a with
  | some f => .error f
  | none => .ok A

/-- `Seq(i)` (R157). -/
def seq (i : Instr) (A : Arch) : Except Fault Arch :=
  match i with
  | .add rd rs rt => .ok { A with x := writeReg A.x rd (aluAdd (readReg A.x rs) (readReg A.x rt)) }
  | .sub rd rs rt => .ok { A with x := writeReg A.x rd (aluSub (readReg A.x rs) (readReg A.x rt)) }
  | .and rd rs rt => .ok { A with x := writeReg A.x rd (aluAnd (readReg A.x rs) (readReg A.x rt)) }
  | .or rd rs rt => .ok { A with x := writeReg A.x rd (aluOr (readReg A.x rs) (readReg A.x rt)) }
  | .slt rd rs rt => .ok { A with x := writeReg A.x rd (setLess (readReg A.x rs) (readReg A.x rt)) }
  | .addi rt rs imm => .ok { A with x := writeReg A.x rt (aluAdd (readReg A.x rs) (sext imm)) }
  | .slti rt rs imm => .ok { A with x := writeReg A.x rt (setLess (readReg A.x rs) (sext imm)) }
  | .lw rt rs imm =>
    let a := effectiveAddress (readReg A.x rs) imm
    seqChecked a { A with x := writeReg A.x rt (memRead A.dmem a) }
  | .sw rt rs imm =>
    let a := effectiveAddress (readReg A.x rs) imm
    seqChecked a { A with dmem := memWrite A.dmem a (readReg A.x rt) }
  | .nop => .ok A

/-- `SeqRun` (R157) of the instructions from slot `k` on, in slot order, stopping at the first raise, with the slot that raised. -/
def seqRunFrom : Nat → List Instr → Arch → Except (Nat × Fault) Arch
  | _, [], A => .ok A
  | k, i :: is, A =>
    match seq i A with
    | .error f => .error (k, f)
    | .ok B => seqRunFrom (k + 1) is B

/-- `SeqRun(PROG)` (R157). -/
def seqRun (prog : List Instr) (A : Arch) : Except (Nat × Fault) Arch := seqRunFrom 0 prog A

/-- The load-use condition of R286 between an instruction and the next one: the first is an `LW` with `rt ≠ 0`, the second reads `rt`. -/
def loadUse (p c : Instr) : Bool :=
  match loadDest p with
  | some rt => decide (rt ≠ 0 ∧ rt ∈ srcs c)
  | none => false

/-- The number of stalls `s` of a program (R286): a function of the program text. -/
def stallCount : List Instr → Nat
  | [] => 0
  | [_] => 0
  | p :: c :: is => (if loadUse p c then 1 else 0) + stallCount (c :: is)

/-- `s_k` (R156): the stalls whose consumer is at a slot `≤ k`. -/
def stallsUpTo (prog : List Instr) (k : Nat) : Nat := stallCount (prog.take (k + 1))

/-- `s_(k-1)` (R156), with `s_(-1) = 0`. -/
def stallsBefore (prog : List Instr) (k : Nat) : Nat := stallCount (prog.take k)

/-- The instructions `RETIRED` counts: those that are not `NOP` (R29, R137). -/
def countedInstrs (prog : List Instr) : Nat := (prog.filter fun i => decide (i ≠ .nop)).length

end Sys2Proof.Machine
end

