-- ==== Sys2Proof/Safety.lean ====
section
/-! DEFINITION. What the statements speak of: the invariant every cycle keeps (10_state.md rules R23, R26, R34; 41_hazard_detector.md
rule R111), loaded and drained states, and what it is for a step to make progress. -/

namespace Sys2Proof.Machine

/-- A record as Fetch and Decode leave it: no field (R34, columns `IF_ID` and `ID_EX`). -/
def InFlight.shapeFetched (r : InFlight) : Bool := r.result.isNone && r.address.isNone && r.storeValue.isNone

/-- A record as Execute leaves it (R34, column `EX_MEM`). -/
def InFlight.shapeExecuted (r : InFlight) : Bool :=
  match r.instr.opcode with
  | .add | .sub | .and | .or | .slt | .addi | .slti => r.result.isSome && r.address.isNone && r.storeValue.isNone
  | .lw => r.result.isNone && r.address.isSome && r.storeValue.isNone
  | .sw => r.result.isNone && r.address.isSome && r.storeValue.isSome
  | .nop => r.result.isNone && r.address.isNone && r.storeValue.isNone

/-- A record as Memory leaves it (R34, column `MEM_WB`): as Execute left it, and an `LW` with its loaded word. -/
def InFlight.shapeAccessed (r : InFlight) : Bool :=
  match r.instr.opcode with
  | .lw => r.result.isSome && r.address.isSome && r.storeValue.isNone
  | .add | .sub | .and | .or | .slt | .addi | .slti | .sw | .nop => r.shapeExecuted

/-- A latch is a `Bubble` or holds a record of the given shape. -/
def Latch.holds (l : Latch) (shape : InFlight → Bool) : Bool :=
  match l with
  | .bubble => true
  | .inFlight r => shape r

/-- R111: an `LW` in `EX_MEM` with a non-zero destination has no reader of it in `ID_EX`. -/
def State.interlocked (s : State) : Bool :=
  match s.exMem, s.idEx with
  | .inFlight p, .inFlight c => !loadUse p.instr c.instr
  | .inFlight _, .bubble => true
  | .bubble, _ => true

/-- The invariant of the datapath: register 0 holds 0 (R23), data memory is in canonical form, `0 ≤ PC ≤ len(PROG) ≤ PROG_MAX` (R26,
R40), every latch has the fields R34 gives it, R111 holds, and a recorded fault is the one the record in `EX_MEM` raises (R242). -/
structure State.Inv (s : State) : Prop where
  zero : s.x[0] = 0#32
  mem : Mem.wf s.dmem = true
  pcBound : s.pc ≤ s.prog.length
  progBound : s.prog.length ≤ Config.progMax
  ifIdShape : s.ifId.holds InFlight.shapeFetched = true
  idExShape : s.idEx.holds InFlight.shapeFetched = true
  exMemShape : s.exMem.holds InFlight.shapeExecuted = true
  memWbShape : s.memWb.holds InFlight.shapeAccessed = true
  interlocked : s.interlocked = true
  faultFromExMem : s.fault = none ∨ s.fault = pendingFault s

/-- All four latches are `Bubble` (R221). -/
abbrev State.PipelineEmpty (s : State) : Prop :=
  s.ifId = .bubble ∧ s.idEx = .bubble ∧ s.exMem = .bubble ∧ s.memWb = .bubble

/-- `Drained(S)` (R287). -/
abbrev State.Drained (s : State) : Prop := s.pc = s.prog.length ∧ s.PipelineEmpty

/-- A loaded state (R211, R221): right after `load`, with any architectural state poked before or after it. -/
abbrev State.Loaded (s : State) : Prop :=
  s.PipelineEmpty ∧ s.pc = 0 ∧ s.retired = 0 ∧ s.fault = none ∧ s.prog.length ≤ Config.progMax ∧
    s.x[0] = 0#32 ∧ Mem.wf s.dmem = true

/-- Execute is about to consume `i` and nothing else is in flight or left to fetch: the state of a one-instruction program two cycles
after its `load`, over any architectural state and any earlier retire count. -/
abbrev State.Alone (s : State) (i : Instr) : Prop :=
  s.idEx = .inFlight (.fetched i) ∧ s.ifId = .bubble ∧ s.exMem = .bubble ∧ s.memWb = .bubble ∧
    s.fault = none ∧ s.prog.length ≤ s.pc

/-- The state with every latch `Bubble`. -/
def State.emptied (s : State) : State := { s with ifId := .bubble, idEx := .bubble, exMem := .bubble, memWb := .bubble }

/-- A state in which the cycle about to be made is one of normal operation: invariant kept, no fault recorded, none about to be raised. -/
def State.Normal (s : State) : Prop := s.Inv ∧ s.fault = none ∧ pendingFault s = none

/-- Executing `i` in `s` answers `t`, the next two cycles answer `u` (Memory) and `v` (Write-Back). -/
def Passes (i : Instr) (s t u v : State) : Prop := exec i s = .next t ∧ step t = .next u ∧ step u = .next v

/-- The number of stall cycles (R46) among the next `n` cycles, as far as they answer. -/
def stallCycles : Nat → State → Nat
  | 0, _ => 0
  | n + 1, s => (if stallFlag s then 1 else 0) +
    match step s with
    | .next t => stallCycles n t
    | .fault _ => 0
    | .refused _ => 0

/-- `n` cycles from `s` answer `t`. -/
def RunsTo (n : Nat) (s t : State) : Prop := Host.Core.run Sys2Proof.core n s = .next t

/-- The byte address that the cycle's Memory step stores to, if it stores (R142): the address of an `SW` in `EX_MEM`. -/
def storeAddress (s : State) : Option Word :=
  match s.exMem with
  | .bubble => none
  | .inFlight p => match memAccess p.instr with
    | .store => p.address
    | .load => none
    | .pass => none

/-- The register that the cycle's Write-Back step writes, if it writes one (R136): a non-zero destination of the record in `MEM_WB`. -/
def committedReg (s : State) : Option Reg :=
  match s.memWb with
  | .bubble => none
  | .inFlight q => match dest q.instr with
    | none => none
    | some d => if d = 0 then none else some d

end Sys2Proof.Machine
end

