-- ==== Sys2Proof/Certificates/Slice0/Obligations.lean ====
section
/-! DEFINITION. The statements for the provers, each from a numbered rule of spec/ (its docstring names it). Helpers first: what
executing an instruction does in one cycle, and what its passage through Execute, Memory and Write-Back does when nothing else is in
flight. -/

open Sys2Proof Sys2Proof.Machine

namespace Sys2Proof.Statements

/-- The field value `v` at bit `n` of a word, as R85 writes it: `v<<n`. -/
def at_ (v n : Nat) : Word := BitVec.ofNat 32 v <<< n

/-- R85 for format R: `rs<<21 | rt<<16 | rd<<11 | funct`. -/
def wordR (funct : Nat) (rd rs rt : Reg) : Word :=
  at_ rs.val 21 ||| at_ rt.val 16 ||| at_ rd.val 11 ||| BitVec.ofNat 32 funct

/-- R85 for format I: `opcode6<<26 | rs<<21 | rt<<16 | (imm mod 2^16)`, `imm` the signed integer. -/
def wordI (opcode6 : Nat) (rt rs : Reg) (imm : Imm) : Word :=
  at_ opcode6 26 ||| at_ rs.val 21 ||| at_ rt.val 16 ||| BitVec.ofNat 32 (imm.toInt % 2 ^ 16).toNat

/-- The instruction an opcode and the bits of a word name: `rs = w[25:21]`, `rt = w[20:16]`, `rd = w[15:11]`, `imm = s(w[15:0])` (R88). -/
def instrFromBits (o : Opcode) (w : Word) : Instr :=
  let rs : Reg := Fin.ofNat 32 (w.toNat / 2 ^ 21)
  let rt : Reg := Fin.ofNat 32 (w.toNat / 2 ^ 16)
  let rd : Reg := Fin.ofNat 32 (w.toNat / 2 ^ 11)
  let imm : Imm := BitVec.ofNat 16 w.toNat
  match o with
  | .add => .add rd rs rt
  | .sub => .sub rd rs rt
  | .and => .and rd rs rt
  | .or => .or rd rs rt
  | .slt => .slt rd rs rt
  | .addi => .addi rt rs imm
  | .slti => .slti rt rs imm
  | .lw => .lw rt rs imm
  | .sw => .sw rt rs imm
  | .nop => .nop

/-- `s` is about to execute `i` in a cycle of normal operation. -/
def Executes (s : State) (i : Instr) : Prop := s.Normal ∧ s.idEx = .inFlight (.fetched i)

/-- Execute of a register-register instruction (R144): both operands resolve, the cycle answers, and `EX_MEM'` is the record with
`result := f(Fwd(rs), Fwd(rt))`. -/
def ExecutesRegisterAlu (i : Instr) (rs rt : Reg) (f : Word → Word → Word) : Prop :=
  ∀ s, Executes s i → ∃ a b t, forward s.x s.exMem s.memWb rs = .next a ∧ forward s.x s.exMem s.memWb rt = .next b ∧
    exec i s = .next t ∧ t.exMem = .inFlight { instr := i, result := some (f a b) }

/-- Execute of an immediate instruction (R145): `EX_MEM'` is the record with `result := f(Fwd(rs), sext_32(imm))`. -/
def ExecutesImmediateAlu (i : Instr) (rs : Reg) (imm : Imm) (f : Word → Word → Word) : Prop :=
  ∀ s, Executes s i → ∃ a t, forward s.x s.exMem s.memWb rs = .next a ∧
    exec i s = .next t ∧ t.exMem = .inFlight { instr := i, result := some (f a (imm.signExtend 32)) }

/-- The whole passage of an ALU instruction with destination `d` and value `v` of the register file, nothing else in flight: Execute sets
`result`, Memory passes the record on, Write-Back writes `x[d]`, unless `d = 0`, and counts one retirement, and nothing else changes. In
between the result is forwarded to a reader of `d ≠ 0` without a stall, and a reader of register 0 gets 0. -/
def AluPassage (i : Instr) (d : Reg) (v : Regs → Word) : Prop :=
  ∀ s, s.Alone i → ∃ t u w, Passes i s t u w ∧
    t.exMem = .inFlight { instr := i, result := some (v s.x) } ∧ u.memWb = t.exMem ∧
    w = { s.emptied with x := writeReg s.x d (v s.x), retired := s.retired + 1 } ∧
    (∀ r, readReg w.x r = if r = d ∧ d ≠ 0 then v s.x else readReg s.x r) ∧
    (∀ c, hazard (.inFlight c) s.idEx = .proceed) ∧
    (∀ x mw, forward x t.exMem mw d = .next (if d = 0 then 0#32 else v s.x))

/-- The word `SLT` and `SLTI` compute: 1 if `s(a) < s(b)`, else 0 (R175, R182). -/
def setLess (a b : Word) : Word := if a.toInt < b.toInt then 1#32 else 0#32

/-- The records of a sequence of instructions, as `load` is given them. -/
def recordsOf (is : List Instr) : List Record := is.map Instr.toRecord

/-- A host operation was refused, by one reply or the other, and changed nothing. -/
def Refuses (s : State) (r : State × HostReply) : Prop := r.1 = s ∧ (r.2 = .badArgument ∨ ∃ q, r.2 = .refused q)

/-- No cycle among the next `n` from `s` stores to the word that address `a` selects. -/
def NoStoreTo (a : Word) (n : Nat) (s : State) : Prop :=
  ∀ m t b, m < n → RunsTo m s t → storeAddress t = some b → wordIndex b ≠ wordIndex a

end Sys2Proof.Statements

open Sys2Proof.Statements

/-! ### Encoding -/

/-- R85: the encoding function, every operand, and its worked examples. -/
def Obligations.EncodeFollowsTheShiftFormula : Prop :=
  (∀ rd rs rt, encode (.add rd rs rt) = wordR 0x20 rd rs rt ∧ encode (.sub rd rs rt) = wordR 0x22 rd rs rt ∧
    encode (.and rd rs rt) = wordR 0x24 rd rs rt ∧ encode (.or rd rs rt) = wordR 0x25 rd rs rt ∧
    encode (.slt rd rs rt) = wordR 0x2A rd rs rt) ∧
  (∀ rt rs imm, encode (.addi rt rs imm) = wordI 0x08 rt rs imm ∧ encode (.slti rt rs imm) = wordI 0x0A rt rs imm ∧
    encode (.lw rt rs imm) = wordI 0x23 rt rs imm ∧ encode (.sw rt rs imm) = wordI 0x2B rt rs imm) ∧
  encode .nop = 0#32 ∧ encode (.add 3 1 2) = 0x00221820#32 ∧ encode (.addi 1 0 5#16) = 0x20010005#32 ∧
  encode (.lw 4 0 0#16) = 0x8C040000#32 ∧ encode (.sw 3 0 0#16) = 0xAC030000#32 ∧
  encode (.slti 2 1 (-1#16)) = 0x2822FFFF#32

/-- R88: `decode(enc(i)) = i`, every instruction, every operand value. -/
def Obligations.DecodeOfEncodeIsTheInstruction : Prop := ∀ i : Instr, decode (encode i) = .ok i

/-- R88: `enc(decode(w)) = w` for every word that is not illegal. -/
def Obligations.EncodeOfDecodeIsTheWord : Prop := ∀ (w : Word) (i : Instr), decode w = .ok i → encode i = w

/-- R84 and R88: a word decodes to an instruction exactly when it matches that instruction's row of the opcode map, with the fields
the word's bits give; no word matches two rows. -/
def Obligations.DecoderFollowsTheOpcodeMap : Prop :=
  (∀ (w : Word) (i : Instr), decode w = .ok i ↔ ∃ row ∈ opcodeMap, row.Matches w ∧ i = instrFromBits row.opcode w) ∧
  (∀ w : Word, ∀ a ∈ opcodeMap, ∀ b ∈ opcodeMap, a.Matches w → b.Matches w → a = b)

/-- R83, R89: which words are illegal, class by class; only the word 0 is `NOP`; an illegal word at slot `k`, all before it legal, makes
`load` answer `MalformedInstruction(k)` and change nothing. -/
def Obligations.IllegalWordsAreRefusedByLoad : Prop :=
  (∀ w : Word, (∃ e, decode w = .error e) ↔ ∀ row ∈ opcodeMap, ¬ row.Matches w) ∧
  (∀ w : Word, w.toNat / 2 ^ 26 ∉ [0x00, 0x08, 0x0A, 0x23, 0x2B] → ∃ e, decode w = .error e) ∧
  (∀ w : Word, w.toNat / 2 ^ 26 = 0 → w.toNat % 2 ^ 6 ∉ [0x00, 0x20, 0x22, 0x24, 0x25, 0x2A] → ∃ e, decode w = .error e) ∧
  (∀ w : Word, w.toNat / 2 ^ 26 = 0 → w.toNat / 2 ^ 6 % 2 ^ 5 ≠ 0 → ∃ e, decode w = .error e) ∧
  (∀ w : Word, w.toNat / 2 ^ 26 = 0 → w.toNat % 2 ^ 11 = 0 → w ≠ 0#32 → ∃ e, decode w = .error e) ∧
  (∀ w : Word, decode w = .ok .nop ↔ w = 0#32) ∧
  (∀ (c : Bool) (pre post : List Word) (w : Word) (e : Illegal) (s : State), (∀ v ∈ pre, ∃ i, decode v = .ok i) →
    pre.length < Config.progMax → decode w = .error e →
    hostCallWith c (.loadWords (pre ++ w :: post)) s = (s, .loadError (.malformedInstruction pre.length)))

/-- A few words, written out from the encodings of R81 to R84, decode to the instruction they stand for (95_test_vectors.md). -/
def Obligations.SpecWordsDecode : Prop :=
  decode 0b00000000001000100001100000100000#32 = .ok (.add 3 1 2) ∧
  decode 0b00000000011000010010100000100010#32 = .ok (.sub 5 3 1) ∧
  decode 0b00100000000000011111111110000101#32 = .ok (.addi 1 0 (-123#16)) ∧
  decode 0b10001100001001001111111111111100#32 = .ok (.lw 4 1 (-4#16)) ∧
  decode 0b10101100001000111111111111111000#32 = .ok (.sw 3 1 (-8#16)) ∧
  decode 0b00000000000000000000000000000000#32 = .ok .nop

/-! ### Records and load -/

/-- R72 to R75: a record resolves to an instruction exactly when it is well formed, and that instruction has the record's opcode and
required fields; otherwise the first failing check names the error. (Check (b) takes in surplus register fields: the model's reading,
log entry 8.) -/
def Obligations.RecordResolvesOrNamesItsFirstDefect : Prop :=
  (∀ (r : Record) (i : Instr), resolve r = .ok i ↔ r.WellFormed ∧ i.opcode = r.opcode ∧
    (∀ n, i.toRecord.rd = some n → r.rd = some n) ∧ (∀ n, i.toRecord.rs = some n → r.rs = some n) ∧
    (∀ n, i.toRecord.rt = some n → r.rt = some n) ∧ (∀ n, i.toRecord.imm = some n → r.imm = some n)) ∧
  (∀ r : Record, r.fieldsPresent = false → resolve r = .error .malformedInstruction) ∧
  (∀ r : Record, r.fieldsPresent = true → r.registersInRange = false → resolve r = .error .outOfRangeRegister) ∧
  (∀ r : Record, r.fieldsPresent = true → r.registersInRange = true → r.immInRange = false →
    resolve r = .error .malformedInstruction)

/-- R211, R214, R66: a `load` that is accepted replaces the program, sets `PC`, `RETIRED`, `FAULT` and the latches, and keeps registers and
data memory, or zeroes them if `LOAD_CLEARS_ARCH`; no other operation changes the program. -/
def Obligations.LoadReplacesTheProgramAndNothingElseDoes : Prop :=
  (∀ (c : Bool) (rs : List Record) (is : List Instr) (s : State), resolveRecords rs = .ok is →
    ∃ t, hostCallWith c (.load rs) s = (t, .done) ∧ t.prog = is ∧ t.pc = 0 ∧ t.retired = 0 ∧ t.fault = none ∧
      t.PipelineEmpty ∧ (c = false → t.arch = s.arch) ∧ (c = true → t.arch = State.reset.arch)) ∧
  (∀ (c : Bool) (op : HostOp) (s : State), (∀ rs, op ≠ .load rs) → (∀ ws, op ≠ .loadWords ws) →
    (hostCallWith c op s).1.prog = s.prog)

/-- R212: `load` checks slots in order; the first that fails names the error and nothing changes; a sequence longer than `PROG_MAX` is
refused; any other is accepted. -/
def Obligations.LoadRefusalNamesTheLowestSlot : Prop :=
  (∀ (c : Bool) (pre post : List Record) (r : Record) (e : RecordError) (s : State), (∀ q ∈ pre, q.WellFormed) →
    pre.length < Config.progMax → resolve r = .error e →
    hostCallWith c (.load (pre ++ r :: post)) s = (s, .loadError (match e with
      | .malformedInstruction => .malformedInstruction pre.length
      | .outOfRangeRegister => .outOfRangeRegister pre.length))) ∧
  (∀ (c : Bool) (rs : List Record) (s : State), (∀ q ∈ rs, q.WellFormed) → Config.progMax < rs.length →
    ∃ k, hostCallWith c (.load rs) s = (s, .loadError (.malformedInstruction k))) ∧
  (∀ (c : Bool) (rs : List Record) (s : State), (∀ q ∈ rs, q.WellFormed) → rs.length ≤ Config.progMax →
    ∃ is, is.length = rs.length ∧ hostCallWith c (.load rs) s = (s.afterLoad c is, .done))

/-- R213, R91: loading legal words is loading the records they decode to; for an instruction sequence of at most `PROG_MAX`, loading its
words leaves that program. The first clause holds whatever the number of words: that more than `PROG_MAX` of them are refused as so many
records are is the model's reading of R213 (log entry 9). -/
def Obligations.LoadingWordsIsLoadingTheirRecords : Prop :=
  (∀ (c : Bool) (ws : List Word) (is : List Instr) (s : State), ws.map decode = is.map Except.ok →
    hostCallWith c (.loadWords ws) s = hostCallWith c (.load (recordsOf is)) s) ∧
  (∀ (c : Bool) (is : List Instr) (s : State), is.length ≤ Config.progMax →
    hostCallWith c (.loadWords (is.map encode)) s = (s.afterLoad c is, .done))

/-! ### Reset, the invariant, determinism -/

/-- R218, R219, R270: `reset()` from any state, element by element; the program is kept. -/
def Obligations.ResetClearsEverythingButTheProgram : Prop :=
  ∀ s : State, ∃ t, hostCall .reset s = (t, .done) ∧ (∀ r, readReg t.x r = 0#32) ∧ (∀ k, Mem.read t.dmem k = 0#32) ∧
    t.pc = 0 ∧ t.retired = 0 ∧ t.ifId = .bubble ∧ t.idEx = .bubble ∧ t.exMem = .bubble ∧ t.memWb = .bubble ∧
    t.fault = none ∧ t.prog = s.prog

/-- The invariant holds at reset (R270, R271). -/
def Obligations.ResetMeetsTheInvariant : Prop := State.reset.Inv

/-- R23, R26, R34, R111: every step keeps the invariant. -/
def Obligations.StepKeepsTheInvariant : Prop := ∀ s t : State, s.Inv → step s = .next t → t.Inv

/-- Every host operation keeps the invariant, a faulting step and refused calls among them (R211, R212, R215, R220, R244). -/
def Obligations.HostCallsKeepTheInvariant : Prop :=
  ∀ (c : Bool) (op : HostOp) (s : State), s.Inv → (hostCallWith c op s).1.Inv

/-- R23: register 0 is 0 after every sequence of host operations from reset; every cycle keeps its stored word; it reads 0 in every
state. -/
def Obligations.RegisterZeroStaysZero : Prop :=
  (∀ (c : Bool) (ops : List HostOp), (hostCalls c ops State.reset).x[0] = 0#32) ∧
  (∀ s t : State, s.x[0] = 0#32 → step s = .next t → t.x[0] = 0#32) ∧
  (∀ s : State, readReg s.x 0 = 0#32)

/-- R274, R153: `reset(); load(P); run(n)` does the same from every state; `reset()` twice is `reset()` once. -/
def Obligations.ResetLoadRunIsReproducible : Prop :=
  (∀ (c : Bool) (rs : List Record) (is : List Instr) (n : Int) (s s' : State), resolveRecords rs = .ok is →
    hostCallWith c (.run n) (hostCallWith c (.load rs) (hostCall .reset s).1).1 =
      hostCallWith c (.run n) (hostCallWith c (.load rs) (hostCall .reset s').1).1) ∧
  (∀ s : State, hostCall .reset (hostCall .reset s).1 = hostCall .reset s)

/-! ### Hazard detector and forwarding unit -/

/-- R101, R103 to R105: when the detector stalls. -/
def Obligations.HazardIsExactlyLoadUse : Prop :=
  ∀ a b : Latch, hazard a b = .stall ↔
    ∃ c p rt rs imm, a = .inFlight c ∧ b = .inFlight p ∧ p.instr = .lw rt rs imm ∧ rt ≠ 0 ∧ rt ∈ srcs c.instr

/-- R76 to R78: destination, sources and whether a register is written, per opcode. -/
def Obligations.OperandRolesPerOpcode : Prop :=
  (∀ rd rs rt : Reg, ∀ i ∈ [Instr.add rd rs rt, .sub rd rs rt, .and rd rs rt, .or rd rs rt, .slt rd rs rt],
    dest i = some rd ∧ srcs i = [rs, rt] ∧ writesReg i = true) ∧
  (∀ (rt rs : Reg) (imm : Imm), ∀ i ∈ [Instr.addi rt rs imm, .slti rt rs imm, .lw rt rs imm],
    dest i = some rt ∧ srcs i = [rs] ∧ writesReg i = true) ∧
  (∀ (rt rs : Reg) (imm : Imm), dest (.sw rt rs imm) = none ∧ srcs (.sw rt rs imm) = [rs, rt] ∧
    writesReg (.sw rt rs imm) = false) ∧
  dest .nop = none ∧ srcs .nop = [] ∧ writesReg .nop = false

/-- R106: a stalling cycle inserts a `Bubble` in `ID_EX` and holds `IF_ID` and `PC`; the `LW` in Execute proceeds; Write-Back, Memory and
Execute do what they do without the consumer. -/
def Obligations.StallInsertsOneBubbleAndHoldsFetch : Prop :=
  ∀ s t : State, hazard s.ifId s.idEx = .stall → step s = .next t →
    t.idEx = .bubble ∧ t.ifId = s.ifId ∧ t.pc = s.pc ∧
    (∃ p r, s.idEx = .inFlight p ∧ t.exMem = .inFlight r ∧ r.instr = p.instr) ∧
    (∃ t', step { s with ifId := .bubble } = .next t' ∧ t'.x = t.x ∧ t'.dmem = t.dmem ∧ t'.retired = t.retired ∧
      t'.exMem = t.exMem ∧ t'.memWb = t.memWb)

/-- R107, R147, R150: a cycle that does not stall passes `IF_ID` to `ID_EX` and fetches slot `PC`, or a `Bubble` past the end. -/
def Obligations.ProceedPassesDecodeAndFetches : Prop :=
  ∀ s t : State, hazard s.ifId s.idEx = .proceed → step s = .next t →
    t.idEx = s.ifId ∧
    (∀ i, s.prog[s.pc]? = some i → t.ifId = .inFlight { instr := i } ∧ t.pc = s.pc + 1) ∧
    (s.prog.length ≤ s.pc → t.ifId = .bubble ∧ t.pc = s.pc)

/-- R108: no two consecutive stalls; the held consumer enters `ID_EX` in the cycle after the stall. -/
def Obligations.StallLastsOneCycle : Prop :=
  ∀ s t : State, stallFlag s = true → step s = .next t →
    stallFlag t = false ∧ ∀ u, step t = .next u → u.idEx = s.ifId

/-- R109: after the stall the consumer finds the `LW` in `MEM_WB` with the word the Memory step read, `EX_MEM` holding a `Bubble`, and
forwarding gives it that word, which Write-Back commits in the same cycle. -/
def Obligations.LoadedWordIsForwardedFromMemWb : Prop :=
  ∀ (s t u : State) (p : InFlight) (rt : Reg), stallFlag s = true → s.idEx = .inFlight p → loadDest p.instr = some rt →
    step s = .next t → step t = .next u →
    ∃ a q, t.exMem = .inFlight { p with address := some a } ∧ u.memWb = .inFlight q ∧ q.instr = p.instr ∧
      q.result = some (Mem.read t.dmem (a.toNat / 4)) ∧ u.exMem = .bubble ∧ u.idEx = s.ifId ∧
      (∀ x, forward x u.exMem u.memWb rt = .next (Mem.read t.dmem (a.toNat / 4))) ∧
      ∀ v, step u = .next v → readReg v.x rt = Mem.read t.dmem (a.toNat / 4)

/-- R116, R117: the forwarding rule, highest priority first. -/
def Obligations.ForwardingTakesTheYoungestProducer : Prop :=
  ∀ (x : Regs) (em mw : Latch) (r : Reg),
    (r = 0 → forward x em mw r = .next 0#32) ∧
    (∀ p v, r ≠ 0 → em = .inFlight p → dest p.instr = some r → p.result = some v → forward x em mw r = .next v) ∧
    (∀ q w, r ≠ 0 → (∀ p, em = .inFlight p → dest p.instr ≠ some r) → mw = .inFlight q → dest q.instr = some r →
      q.result = some w → forward x em mw r = .next w) ∧
    (r ≠ 0 → (∀ p, em = .inFlight p → dest p.instr ≠ some r) → (∀ q, mw = .inFlight q → dest q.instr ≠ some r) →
      forward x em mw r = .next (readReg x r))

/-- R121: reading the register file before or after this cycle's Write-Back gives the forwarding unit the same word. -/
def Obligations.ForwardingCannotSeeWriteBackTiming : Prop :=
  ∀ (s : State) (x' : Regs) (n' : Nat) (r : Reg), writeBackStage s = .next (x', n') →
    forward x' s.exMem s.memWb r = forward s.x s.exMem s.memWb r

/-- R111, R123, R126, R154, R260: in a state that meets the invariant, with no fault recorded, every step returns a next state or raises
the Memory step's error; it is never refused, so forwarding never asks for the word of an `LW` that has not read it. -/
def Obligations.UnfaultedStepIsNeverRefused : Prop :=
  ∀ s : State, s.Inv → s.fault = none →
    (pendingFault s = none → ∃ t, step s = .next t) ∧ (∀ f, pendingFault s = some f → step s = .fault f)

/-! ### The step and the instructions -/

/-- A step runs the decoded instruction: the step at a state whose `ID_EX` holds a record is `exec` of its instruction, in particular
after the placing of a word; an instruction at slot `PC` is in `IF_ID` after one cycle that does not stall and in `ID_EX` after the
next, so that the third executes it (R143, R147, R150, R152). -/
def Obligations.StepRunsTheDecodedInstruction : Prop :=
  (∀ (s : State) (r : InFlight), s.idEx = .inFlight r → step s = exec r.instr s) ∧
  (∀ s : State, s.idEx = .bubble → step s = bubbleCycle s) ∧
  (∀ (s : State) (w : Nat) (i : Instr), w < 2 ^ 32 → decode (BitVec.ofNat 32 w) = .ok i →
    step (s.withFetchWord 32 w) = exec i (s.withFetchWord 32 w)) ∧
  (∀ (s t u : State) (i : Instr), s.prog[s.pc]? = some i → stallFlag s = false → step s = .next t →
    t.ifId = .inFlight (.fetched i) ∧ t.pc = s.pc + 1 ∧
    (stallFlag t = false → step t = .next u → u.idEx = .inFlight (.fetched i) ∧ step u = exec i u))

/-- R144: Execute of `ADD SUB AND OR SLT`, in every state of normal operation. -/
def Obligations.ExecuteComputesRegisterResults : Prop :=
  ∀ rd rs rt : Reg,
    ExecutesRegisterAlu (.add rd rs rt) rs rt (fun a b => a + b) ∧
    ExecutesRegisterAlu (.sub rd rs rt) rs rt (fun a b => a - b) ∧
    ExecutesRegisterAlu (.and rd rs rt) rs rt (fun a b => a &&& b) ∧
    ExecutesRegisterAlu (.or rd rs rt) rs rt (fun a b => a ||| b) ∧
    ExecutesRegisterAlu (.slt rd rs rt) rs rt Statements.setLess

/-- R145: Execute of `ADDI SLTI`, in every state of normal operation. -/
def Obligations.ExecuteComputesImmediateResults : Prop :=
  ∀ (rt rs : Reg) (imm : Imm),
    ExecutesImmediateAlu (.addi rt rs imm) rs imm (fun a m => a + m) ∧
    ExecutesImmediateAlu (.slti rt rs imm) rs imm Statements.setLess

/-- R146: Execute of `LW` and `SW`, in every state of normal operation: the address, and for `SW` the word to store; no check. -/
def Obligations.ExecuteComputesAddresses : Prop :=
  ∀ (rt rs : Reg) (imm : Imm) (s : State),
    (Executes s (.lw rt rs imm) → ∃ a t, forward s.x s.exMem s.memWb rs = .next a ∧ exec (.lw rt rs imm) s = .next t ∧
      t.exMem = .inFlight { instr := .lw rt rs imm, address := some (a + imm.signExtend 32) }) ∧
    (Executes s (.sw rt rs imm) → ∃ a v t, forward s.x s.exMem s.memWb rs = .next a ∧ forward s.x s.exMem s.memWb rt = .next v ∧
      exec (.sw rt rs imm) s = .next t ∧
      t.exMem = .inFlight { instr := .sw rt rs imm, address := some (a + imm.signExtend 32), storeValue := some v })

/-- R143, R200, R202: a `NOP` passes Execute with no field set, a `Bubble` passes as a `Bubble`, in every state of normal operation. -/
def Obligations.ExecutePassesNopAndBubble : Prop :=
  ∀ s : State,
    (Executes s .nop → ∃ t, exec .nop s = .next t ∧ t.exMem = s.idEx) ∧
    (s.Normal → s.idEx = .bubble → ∃ t, step s = .next t ∧ t.exMem = .bubble)

/-- R171: `ADD`, encoding and whole passage. -/
def Obligations.AddWritesTheWrappedSum : Prop :=
  ∀ rd rs rt : Reg, encode (.add rd rs rt) = wordR 0x20 rd rs rt ∧
    AluPassage (.add rd rs rt) rd (fun x => readReg x rs + readReg x rt)

/-- R172: `SUB`, encoding and whole passage. -/
def Obligations.SubWritesTheWrappedDifference : Prop :=
  ∀ rd rs rt : Reg, encode (.sub rd rs rt) = wordR 0x22 rd rs rt ∧
    AluPassage (.sub rd rs rt) rd (fun x => readReg x rs - readReg x rt)

/-- R173: `AND`, encoding and whole passage. -/
def Obligations.AndWritesTheBitwiseAnd : Prop :=
  ∀ rd rs rt : Reg, encode (.and rd rs rt) = wordR 0x24 rd rs rt ∧
    AluPassage (.and rd rs rt) rd (fun x => readReg x rs &&& readReg x rt)

/-- R174: `OR`, encoding and whole passage. -/
def Obligations.OrWritesTheBitwiseOr : Prop :=
  ∀ rd rs rt : Reg, encode (.or rd rs rt) = wordR 0x25 rd rs rt ∧
    AluPassage (.or rd rs rt) rd (fun x => readReg x rs ||| readReg x rt)

/-- R175: `SLT`, encoding and whole passage. -/
def Obligations.SltWritesTheSignedComparison : Prop :=
  ∀ rd rs rt : Reg, encode (.slt rd rs rt) = wordR 0x2A rd rs rt ∧
    AluPassage (.slt rd rs rt) rd (fun x => Statements.setLess (readReg x rs) (readReg x rt))

/-- R181: `ADDI`, encoding and whole passage. -/
def Obligations.AddiWritesTheWrappedSum : Prop :=
  ∀ (rt rs : Reg) (imm : Imm), encode (.addi rt rs imm) = wordI 0x08 rt rs imm ∧
    AluPassage (.addi rt rs imm) rt (fun x => readReg x rs + imm.signExtend 32)

/-- R182: `SLTI`, encoding and whole passage. -/
def Obligations.SltiWritesTheSignedComparison : Prop :=
  ∀ (rt rs : Reg) (imm : Imm), encode (.slti rt rs imm) = wordI 0x0A rt rs imm ∧
    AluPassage (.slti rt rs imm) rt (fun x => Statements.setLess (readReg x rs) (imm.signExtend 32))

/-- R192: `LW`, encoding, whole passage at an aligned address in range, the two faults in the Memory cycle, and the hazard. -/
def Obligations.LwLoadsTheWordOrFaults : Prop :=
  ∀ (rt rs : Reg) (imm : Imm), encode (.lw rt rs imm) = wordI 0x23 rt rs imm ∧
    ∀ (s : State) (ea : Word), s.Alone (.lw rt rs imm) → ea = readReg s.x rs + imm.signExtend 32 →
      (ea.toNat % 4 = 0 → ea.toNat < 4096 → ∃ t u w, Passes (.lw rt rs imm) s t u w ∧
        t.exMem = .inFlight { instr := .lw rt rs imm, address := some ea } ∧
        u.memWb = .inFlight { instr := .lw rt rs imm, address := some ea, result := some (Mem.read s.dmem (ea.toNat / 4)) } ∧
        w = { s.emptied with x := writeReg s.x rt (Mem.read s.dmem (ea.toNat / 4)), retired := s.retired + 1 } ∧
        (∀ r, readReg w.x r = if r = rt ∧ rt ≠ 0 then Mem.read s.dmem (ea.toNat / 4) else readReg s.x r) ∧
        (∀ x, forward x .bubble u.memWb rt = .next (if rt = 0 then 0#32 else Mem.read s.dmem (ea.toNat / 4)))) ∧
      (ea.toNat % 4 ≠ 0 → ∃ t, exec (.lw rt rs imm) s = .next t ∧ step t = .fault (.unalignedMemoryAccess ea)) ∧
      (ea.toNat % 4 = 0 → 4096 ≤ ea.toNat →
        ∃ t, exec (.lw rt rs imm) s = .next t ∧ step t = .fault (.outOfRangeAddress ea)) ∧
      (∀ c, hazard (.inFlight c) s.idEx = .stall ↔ rt ≠ 0 ∧ rt ∈ srcs c.instr)

/-- R193: `SW`, encoding, whole passage at an aligned address in range, the two faults in the Memory cycle, no forwarding source, stalled
by an `LW` of its base or its word. The word is in data memory after its Memory cycle, one cycle before the `SW` is counted. -/
def Obligations.SwStoresTheWordOrFaults : Prop :=
  ∀ (rt rs : Reg) (imm : Imm), encode (.sw rt rs imm) = wordI 0x2B rt rs imm ∧
    ∀ (s : State) (ea : Word), s.Alone (.sw rt rs imm) → ea = readReg s.x rs + imm.signExtend 32 →
      (ea.toNat % 4 = 0 → ea.toNat < 4096 → ∃ t u w, Passes (.sw rt rs imm) s t u w ∧
        t.exMem = .inFlight { instr := .sw rt rs imm, address := some ea, storeValue := some (readReg s.x rt) } ∧
        u.dmem = Mem.write s.dmem (ea.toNat / 4) (readReg s.x rt) ∧ u.retired = s.retired ∧ u.memWb = t.exMem ∧
        w = { s.emptied with dmem := Mem.write s.dmem (ea.toNat / 4) (readReg s.x rt), retired := s.retired + 1 } ∧
        (Mem.wf s.dmem = true → ∀ k, Mem.read w.dmem k = if k = ea.toNat / 4 then readReg s.x rt else Mem.read s.dmem k) ∧
        (∀ x mw r, forward x t.exMem mw r = forward x .bubble mw r)) ∧
      (∀ p q rs' imm', p.instr = .lw q rs' imm' → (hazard s.idEx (.inFlight p) = .stall ↔ q ≠ 0 ∧ (q = rs ∨ q = rt))) ∧
      (ea.toNat % 4 ≠ 0 → ∃ t, exec (.sw rt rs imm) s = .next t ∧ step t = .fault (.unalignedMemoryAccess ea)) ∧
      (ea.toNat % 4 = 0 → 4096 ≤ ea.toNat →
        ∃ t, exec (.sw rt rs imm) s = .next t ∧ step t = .fault (.outOfRangeAddress ea))

/-- R200: `NOP`, encoding and whole passage: no field, no register, no memory word, no count; it neither stalls nor is stalled. -/
def Obligations.NopChangesNothingAndIsNotCounted : Prop :=
  encode .nop = 0#32 ∧
  ∀ s : State, s.Alone .nop → ∃ t u w, Passes .nop s t u w ∧ t.exMem = .inFlight { instr := .nop } ∧ u.memWb = t.exMem ∧
    w = s.emptied ∧ (∀ l, hazard l s.idEx = .proceed ∧ hazard s.idEx l = .proceed) ∧
    (∀ x mw r, forward x t.exMem mw r = forward x .bubble mw r)

/-- Frame of one cycle, for every instruction (`ADD SUB AND OR SLT ADDI SLTI LW SW NOP`) in Execute: only the register the record in
`MEM_WB` commits to, only the word the `SW` in `EX_MEM` stores to, the latches, `PC` by at most one slot and `RETIRED` by at most one
(R27, R29, R55, R97, R136, R138). -/
def Obligations.ExecuteCycleFrame : Prop :=
  ∀ (i : Instr) (s t : State), exec i s = .next t →
    (∀ r, committedReg s ≠ some r → readReg t.x r = readReg s.x r) ∧
    (∀ k, (∀ a, storeAddress s = some a → wordIndex a ≠ k) → Mem.read t.dmem k = Mem.read s.dmem k) ∧
    t.prog = s.prog ∧ t.fault = s.fault ∧ (t.pc = s.pc ∨ t.pc = s.pc + 1) ∧
    (t.retired = s.retired ∨ t.retired = s.retired + 1)

/-- Frame of a whole passage, for every instruction (`ADD SUB AND OR SLT ADDI SLTI LW SW NOP`) alone in the pipeline: every register but
its destination, every word of data memory but the one an `SW` stores to at its effective address, `PC`, `FAULT` and the program are as
before, and every latch is `Bubble` again. -/
def Obligations.PassageFrame : Prop :=
  ∀ (i : Instr) (s t u w : State), s.Alone i → Passes i s t u w →
    (∀ r, dest i ≠ some r → readReg w.x r = readReg s.x r) ∧
    (∀ k, (∀ rt rs imm, i = .sw rt rs imm → wordIndex (effectiveAddress (readReg s.x rs) imm) ≠ k) →
      Mem.read w.dmem k = Mem.read s.dmem k) ∧
    w.pc = s.pc ∧ w.fault = s.fault ∧ w.prog = s.prog ∧ w.PipelineEmpty

/-! ### Write-Back and Memory -/

/-- R136, R137: what Write-Back commits and counts, in every step that answers. -/
def Obligations.WriteBackCommitsAndCounts : Prop :=
  ∀ s t : State, step s = .next t →
    (s.memWb = .bubble → t.x = s.x ∧ t.retired = s.retired) ∧
    (∀ q, s.memWb = .inFlight q →
      (∀ d w, dest q.instr = some d → q.result = some w → t.x = writeReg s.x d w) ∧
      (dest q.instr = none → t.x = s.x) ∧ (s.Inv → ∀ d, dest q.instr = some d → ∃ w, q.result = some w) ∧
      (q.instr ≠ .nop → t.retired = s.retired + 1) ∧ (q.instr = .nop → t.retired = s.retired))

/-- R139, R141, R142: what Memory does, in every step that answers: a `Bubble` and a record that is no `LW` or `SW` pass; an `LW` reads the
pre-cycle word; an `SW` writes its word and no other. -/
def Obligations.MemoryReadsForLwAndWritesForSw : Prop :=
  ∀ s t : State, step s = .next t →
    (s.exMem = .bubble → t.memWb = .bubble ∧ t.dmem = s.dmem) ∧
    (∀ p, s.exMem = .inFlight p →
      (∀ rt rs imm, p.instr = .lw rt rs imm → ∃ a, p.address = some a ∧ t.dmem = s.dmem ∧
        t.memWb = .inFlight { p with result := some (Mem.read s.dmem (a.toNat / 4)) }) ∧
      (∀ rt rs imm, p.instr = .sw rt rs imm → ∃ a v, p.address = some a ∧ p.storeValue = some v ∧ t.memWb = .inFlight p ∧
        (Mem.wf s.dmem = true → ∀ k, Mem.read t.dmem k = if k = a.toNat / 4 then v else Mem.read s.dmem k)) ∧
      ((∀ rt rs imm, p.instr ≠ .lw rt rs imm) → (∀ rt rs imm, p.instr ≠ .sw rt rs imm) →
        t.memWb = .inFlight p ∧ t.dmem = s.dmem))

/-- R194: the word an `SW` stores at an aligned address is what an `LW` from that address reads, no store to it in between. -/
def Obligations.StoreThenLoadYieldsTheWord : Prop :=
  ∀ (s t u w : State) (p q : InFlight) (a v : Word) (n : Nat), Mem.wf s.dmem = true →
    s.exMem = .inFlight p → memAccess p.instr = .store → p.address = some a → p.storeValue = some v → step s = .next t →
    RunsTo n t u → NoStoreTo a n t →
    u.exMem = .inFlight q → memAccess q.instr = .load → q.address = some a → step u = .next w →
    w.memWb = .inFlight { q with result := some v }

/-! ### Faults -/

/-- R140, R56, R57: the address checks, alignment first, in every state of the invariant. -/
def Obligations.AddressChecksRaiseTheFault : Prop :=
  ∀ (s : State) (p : InFlight) (a : Word), s.Inv → s.fault = none → s.exMem = .inFlight p → memAccess p.instr ≠ .pass →
    p.address = some a →
    (a.toNat % 4 ≠ 0 → step s = .fault (.unalignedMemoryAccess a)) ∧
    (a.toNat % 4 = 0 → 4096 ≤ a.toNat → step s = .fault (.outOfRangeAddress a))

/-- R243: only an `LW` or `SW` in `EX_MEM` makes a step fault, and the fault is the one its address meets; no address that is aligned and
in range faults. -/
def Obligations.OnlyLoadsAndStoresFault : Prop :=
  ∀ (s : State) (f : Fault), step s = .fault f →
    ∃ p a, s.exMem = .inFlight p ∧ ((∃ rt rs imm, p.instr = .lw rt rs imm) ∨ ∃ rt rs imm, p.instr = .sw rt rs imm) ∧
      p.address = some a ∧
      ((f = .unalignedMemoryAccess a ∧ a.toNat % 4 ≠ 0) ∨ (f = .outOfRangeAddress a ∧ a.toNat % 4 = 0 ∧ 4096 ≤ a.toNat))

/-- R244, R215, R241, R242: a faulting step publishes nothing; the host finds every element as before and `FAULT` set, with its code and
address. -/
def Obligations.FaultPublishesNothingButItself : Prop :=
  ∀ (s : State) (f : Fault), step s = .fault f → ∃ t, hostCall .step s = (t, .faulted 0 f) ∧ t = { s with fault := some f } ∧
    ∀ a, (f = .unalignedMemoryAccess a → faultCode t.fault = 2#3 ∧ faultAddr t.fault = a) ∧
      (f = .outOfRangeAddress a → faultCode t.fault = 4#3 ∧ faultAddr t.fault = a)

/-- R246: while `FAULT` is set, `step` and `run` are refused and change nothing; `reset` and an accepted `load` clear it; nothing else does. -/
def Obligations.FaultHoldsUntilResetOrLoad : Prop :=
  ∀ (c : Bool) (s : State) (f : Fault), s.fault = some f →
    step s = .refused (.faulted f) ∧
    hostCallWith c .step s = (s, .refused (.faulted f)) ∧
    (∀ n : Int, 0 < n → hostCallWith c (.run n) s = (s, .refused (.faulted f))) ∧
    (∀ n : Int, Refuses s (hostCallWith c (.run n) s)) ∧
    (hostCallWith c .reset s).1.fault = none ∧
    (∀ rs is, resolveRecords rs = .ok is → (hostCallWith c (.load rs) s).1.fault = none) ∧
    (∀ op, (hostCallWith c op s).1.fault ≠ some f → op = .reset ∨ (∃ rs, op = .load rs) ∨ ∃ ws, op = .loadWords ws)

/-! ### Runs, poke, ports -/

/-- R216: `run` makes exactly the cycles asked for and answers their number and the snapshot of the last; a count that is not positive is
refused; a fault ends it, the completed cycles counted; `run(m)` then `run(n)` is `run(m + n)` when neither faults. The reply of a
completed run, its count and its last snapshot, is the model's choice, R216 naming none (log entry 13); so is the name of the reply to a
bad count (log entries 13 and 14). -/
def Obligations.RunIsRepeatedStep : Prop :=
  (∀ (n : Int) (s : State), n ≤ 0 → Refuses s (hostCall (.run n) s) ∧
    (s.fault = none → hostCall (.run n) s = (s, .badArgument))) ∧
  (∀ (n : Nat) (s r t : State), RunsTo n s r → step r = .next t →
    hostCall (.run (n + 1 : Nat)) s = (t, .ran (n + 1) (t.snapshot (stallFlag r)))) ∧
  (∀ (n k : Nat) (s t : State) (f : Fault), k < n → RunsTo k s t → step t = .fault f →
    hostCall (.run n) s = ({ t with fault := some f }, .faulted k f)) ∧
  (∀ (m n : Nat) (s t u : State), RunsTo m s t → RunsTo n t u → RunsTo (m + n) s u)

/-- R155: a cycle of a drained state changes nothing; a `Bubble` in a latch moves to the next one, and at Write-Back vanishes, with no
state change on the way; past the end Fetch supplies `Bubble`s. -/
def Obligations.DrainedStateIsAFixedPoint : Prop :=
  (∀ s : State, s.Drained → s.fault = none → step s = .next s) ∧
  (∀ s t : State, step s = .next t → (stallFlag s = false → s.ifId = .bubble → t.idEx = .bubble) ∧
    (s.idEx = .bubble → t.exMem = .bubble) ∧ (s.exMem = .bubble → t.memWb = .bubble ∧ t.dmem = s.dmem) ∧
    (s.memWb = .bubble → t.x = s.x ∧ t.retired = s.retired) ∧ (stallFlag s = true → t.ifId = s.ifId) ∧
    (stallFlag s = false → s.prog.length ≤ s.pc → t.ifId = .bubble ∧ t.pc = s.pc))

/-- R220, R225: a poke sets the named word and no other; register 0 stays 0; an index out of range is refused with no change. (That a poke
is refused while `FAULT` is set is read from R225: log entry 10.) -/
def Obligations.PokeSetsOneWord : Prop :=
  ∀ (s : State) (v : Word), s.fault = none →
    (∀ i : Reg, ∃ t, hostCall (.pokeReg i.val v) s = (t, .done) ∧ t = { s with x := t.x } ∧
      ∀ r, readReg t.x r = if r = i ∧ r ≠ 0 then v else readReg s.x r) ∧
    (∀ k : Nat, k < 1024 → ∃ t, hostCall (.pokeMem k v) s = (t, .done) ∧ t = { s with dmem := t.dmem } ∧
      (Mem.wf s.dmem = true → ∀ l, Mem.read t.dmem l = if l = k then v else Mem.read s.dmem l)) ∧
    (∀ i : Int, i < 0 ∨ 32 ≤ i → hostCall (.pokeReg i v) s = (s, .badArgument)) ∧
    (∀ k : Int, k < 0 ∨ 1024 ≤ k → hostCall (.pokeMem k v) s = (s, .badArgument))

/-- R230: one edge of the port-level clock is the host operation its inputs name: `rst` first, `reset`; `step_en` a `step`, inside the
program or past its end, frozen while `FAULT` is set whatever the store holds; `poke_*` the pokes, not honoured with `step_en = 1`;
`prog_load` the load of the store; nothing asserted holds the state. The model's choices in it: a poke does nothing while `FAULT` is set,
as the host's (log entry 10); a poke and a load on one edge are both made with `FAULT` none, and a load is made although a frozen
`step_en` is asserted (log entry 11). -/
def Obligations.PortEdgeIsAHostOperation : Prop :=
  ∀ (p : PortIn) (s : State),
    (p.rst = true → portEdge p s = some (hostCall .reset s).1) ∧
    (p.stepEn = true → portEdge p s = portEdge { p with pokeReg := none, pokeMem := none } s) ∧
    (p.rst = false → p.progLoad = false → p.stepEn = true →
      (∀ f, s.fault = some f → portEdge p s = some s) ∧
      (p.imemLen.toNat = s.prog.length → (∀ i, s.prog[s.pc]? = some i → p.imemData = encode i) →
        portEdge p s = some (hostCall .step s).1)) ∧
    (p.rst = false → p.progLoad = false → p.stepEn = false →
      (p.pokeReg = none → p.pokeMem = none → portEdge p s = some s) ∧
      (∀ i v, p.pokeReg = some (i, v) → p.pokeMem = none → portEdge p s = some (hostCall (.pokeReg i.val v) s).1) ∧
      (∀ k w, p.pokeReg = none → p.pokeMem = some (k, w) → portEdge p s = some (hostCall (.pokeMem k.val w) s).1) ∧
      (∀ i v k w, p.pokeReg = some (i, v) → p.pokeMem = some (k, w) →
        portEdge p s = some (hostCall (.pokeMem k.val w) (hostCall (.pokeReg i.val v) s).1).1) ∧
      (∀ f, s.fault = some f → portEdge p s = some s)) ∧
    (∀ prog, p.rst = false → p.progLoad = true → resolveWords p.instrStore = .ok prog →
      (p.stepEn = false → p.pokeReg = none → p.pokeMem = none →
        portEdge p s = some (hostCallWith false (.loadWords p.instrStore) s).1) ∧
      (∀ t, p.stepEn = false → s.fault = none → portEdge { p with progLoad := false } s = some t →
        portEdge p s = some (hostCallWith false (.loadWords p.instrStore) t).1) ∧
      (∀ f, p.stepEn = true → s.fault = some f → portEdge p s = some (hostCallWith false (.loadWords p.instrStore) s).1))

/-! ### Headlines: the pipeline is the sequential machine -/

/-- R160, the run that raises nothing: from a loaded state, after any `n ≥ len + 4 + s` cycles the datapath has not faulted, is drained, has
the architectural state of `SeqRun` and has counted the instructions that are not `NOP`. -/
def Obligations.PipelineComputesTheSequentialResult : Prop :=
  ∀ (s : State) (A : Arch) (n : Nat), s.Loaded → seqRun s.prog s.arch = .ok A →
    s.prog.length + 4 + stallCount s.prog ≤ n →
    ∃ t, RunsTo n s t ∧ t.fault = none ∧ t.Drained ∧ t.arch = A ∧ t.retired = countedInstrs s.prog

/-- R160, the run that raises: the datapath faults with the same error in cycle `k + 4 + s_k`, every store of a slot before `k` performed and
none of a slot from `k` on; R245: the register file lags by at most what `MEM_WB` holds. -/
def Obligations.PipelineFaultsWhereTheSequentialRunDoes : Prop :=
  ∀ (s : State) (k : Nat) (f : Fault), s.Loaded → seqRun s.prog s.arch = .error (k, f) →
    ∃ t A n', RunsTo (k + 3 + stallsUpTo s.prog k) s t ∧ step t = .fault f ∧
      seqRun (s.prog.take k) s.arch = .ok A ∧ t.dmem = A.dmem ∧ writeBackStage t = .next (A.x, n')

/-- R156: where the instruction at slot `k` is, cycle by cycle, from a loaded state, as far as the run goes; after the last one's
Write-Back the state is drained. -/
def Obligations.OccupancyFollowsTheStallCount : Prop :=
  ∀ (s t : State) (k : Nat) (i : Instr), s.Loaded → s.prog[k]? = some i →
    (RunsTo (k + 1 + stallsBefore s.prog k) s t → t.ifId = .inFlight (.fetched i)) ∧
    (RunsTo (k + 1 + stallsUpTo s.prog k) s t → t.ifId = .inFlight (.fetched i)) ∧
    (RunsTo (k + 2 + stallsUpTo s.prog k) s t → t.idEx = .inFlight (.fetched i)) ∧
    (RunsTo (k + 3 + stallsUpTo s.prog k) s t → ∃ r, t.exMem = .inFlight r ∧ r.instr = i) ∧
    (RunsTo (k + 4 + stallsUpTo s.prog k) s t → ∃ r, t.memWb = .inFlight r ∧ r.instr = i) ∧
    (RunsTo (k + 5 + stallsUpTo s.prog k) s t → t.retired = countedInstrs (s.prog.take (k + 1)) ∧
      (k + 1 = s.prog.length → t.Drained))

/-- R286, R287: from a loaded state with a program, `Drained` holds after `n` cycles exactly when `n ≥ len + 4 + s`, and by then exactly `s`
cycles have stalled; an empty program is drained at once. -/
def Obligations.DrainTimeCountsTheStalls : Prop :=
  (∀ (s t : State) (n : Nat), s.Loaded → s.prog ≠ [] → RunsTo n s t →
    (t.Drained ↔ s.prog.length + 4 + stallCount s.prog ≤ n) ∧
    (s.prog.length + 4 + stallCount s.prog ≤ n → stallCycles n s = stallCount s.prog)) ∧
  (∀ s : State, s.Loaded → s.prog = [] → s.Drained)

/-! ### Replies and outputs -/

/-- R215, R222: `step()` answers the snapshot of the new state, every element of it, with the stall flag of the cycle just made, which the
snapshots before and after show (R46); or the fault, which sets `FAULT` and nothing else; or a refusal while `FAULT` is set. -/
def Obligations.StepRepliesTheNewSnapshot : Prop :=
  (∀ s t : State, step s = .next t → ∃ snap, hostCall .step s = (t, .stepped snap) ∧
    snap.pc = t.pc ∧ snap.ifId = t.ifId ∧ snap.idEx = t.idEx ∧ snap.exMem = t.exMem ∧ snap.memWb = t.memWb ∧
    snap.x = t.x ∧ snap.dmem = t.dmem ∧ snap.retired = t.retired ∧ snap.fault = t.fault ∧
    (snap.stall = true ↔ hazard s.ifId s.idEx = .stall) ∧
    (snap.stall = true ↔ t.idEx = .bubble ∧ t.ifId = s.ifId ∧ t.ifId ≠ .bubble ∧ t.pc = s.pc)) ∧
  (∀ (s : State) (f : Fault), step s = .fault f → hostCall .step s = ({ s with fault := some f }, .faulted 0 f)) ∧
  (∀ (s : State) (f : Fault), s.fault = some f → hostCall .step s = (s, .refused (.faulted f)))

/-- R230, R222, R241, R242: the outputs of the port view: the slot Fetch reads, the stall of the cycle about to be made, the code and the
address of `FAULT`, and every state element of the snapshot, as the step that published the state answered it. -/
def Obligations.PortOutputsShowTheState : Prop :=
  ∀ s : State,
    (s.Inv → (portOut s).imemAddr.toNat = s.pc) ∧
    ((portOut s).stall = true ↔ hazard s.ifId s.idEx = .stall) ∧
    (s.fault = none → (portOut s).fault = 0#3) ∧
    (∀ a, s.fault = some (.unalignedMemoryAccess a) → (portOut s).fault = 2#3 ∧ (portOut s).faultAddr = a) ∧
    (∀ a, s.fault = some (.outOfRangeAddress a) → (portOut s).fault = 4#3 ∧ (portOut s).faultAddr = a) ∧
    ((portOut s).snap.pc = s.pc ∧ (portOut s).snap.ifId = s.ifId ∧ (portOut s).snap.idEx = s.idEx ∧
      (portOut s).snap.exMem = s.exMem ∧ (portOut s).snap.memWb = s.memWb ∧ (portOut s).snap.x = s.x ∧
      (portOut s).snap.dmem = s.dmem ∧ (portOut s).snap.retired = s.retired ∧ (portOut s).snap.fault = s.fault) ∧
    (∀ b, step b = .next s → ∃ snap, hostCall .step b = (s, .stepped snap) ∧ snap.toPublished = (portOut s).snap)

/-- U4, R225, R246: while `FAULT` is set, `run` of every count and a poke of every index are answered with the recorded fault and change
nothing. That a poke is refused is log entry 10, and that this refusal goes before the one of a bad count or index is log entry 14. -/
def Obligations.FaultIsAnsweredBeforeABadArgument : Prop :=
  ∀ (c : Bool) (s : State) (f : Fault), s.fault = some f →
    (∀ n : Int, hostCallWith c (.run n) s = (s, .refused (.faulted f))) ∧
    (∀ (i : Int) (v : Word), hostCallWith c (.pokeReg i v) s = (s, .refused (.faulted f))) ∧
    (∀ (k : Int) (v : Word), hostCallWith c (.pokeMem k v) s = (s, .refused (.faulted f)))
end

