-- ==== Sys2Proof/Laws/State.lean ====
section
/-! SUPPORT. One lemma per field for each update of the state, so that no proof unfolds a record update. -/

namespace Sys2Proof.Laws

open Sys2Proof.Machine

/-! `issued` puts the record in `ID_EX` and touches nothing else. -/

@[simp] theorem issued_x (s : State) (i : Instr) : (s.issued i).x = s.x := rfl
@[simp] theorem issued_dmem (s : State) (i : Instr) : (s.issued i).dmem = s.dmem := rfl
@[simp] theorem issued_pc (s : State) (i : Instr) : (s.issued i).pc = s.pc := rfl
@[simp] theorem issued_retired (s : State) (i : Instr) : (s.issued i).retired = s.retired := rfl
@[simp] theorem issued_ifId (s : State) (i : Instr) : (s.issued i).ifId = s.ifId := rfl
@[simp] theorem issued_idEx (s : State) (i : Instr) : (s.issued i).idEx = .inFlight (recordInExecute i s) := rfl
@[simp] theorem issued_exMem (s : State) (i : Instr) : (s.issued i).exMem = s.exMem := rfl
@[simp] theorem issued_memWb (s : State) (i : Instr) : (s.issued i).memWb = s.memWb := rfl
@[simp] theorem issued_fault (s : State) (i : Instr) : (s.issued i).fault = s.fault := rfl
@[simp] theorem issued_prog (s : State) (i : Instr) : (s.issued i).prog = s.prog := rfl

/-! `recordFault` sets `FAULT` and touches nothing else. -/

@[simp] theorem recordFault_x (s : State) (f : Fault) : (s.recordFault f).x = s.x := rfl
@[simp] theorem recordFault_dmem (s : State) (f : Fault) : (s.recordFault f).dmem = s.dmem := rfl
@[simp] theorem recordFault_pc (s : State) (f : Fault) : (s.recordFault f).pc = s.pc := rfl
@[simp] theorem recordFault_retired (s : State) (f : Fault) : (s.recordFault f).retired = s.retired := rfl
@[simp] theorem recordFault_ifId (s : State) (f : Fault) : (s.recordFault f).ifId = s.ifId := rfl
@[simp] theorem recordFault_idEx (s : State) (f : Fault) : (s.recordFault f).idEx = s.idEx := rfl
@[simp] theorem recordFault_exMem (s : State) (f : Fault) : (s.recordFault f).exMem = s.exMem := rfl
@[simp] theorem recordFault_memWb (s : State) (f : Fault) : (s.recordFault f).memWb = s.memWb := rfl
@[simp] theorem recordFault_fault (s : State) (f : Fault) : (s.recordFault f).fault = some f := rfl
@[simp] theorem recordFault_prog (s : State) (f : Fault) : (s.recordFault f).prog = s.prog := rfl

/-! `loaded` sets what R211 lists and keeps registers and data memory. -/

@[simp] theorem loaded_x (s : State) (p : List Instr) : (s.loaded p).x = s.x := rfl
@[simp] theorem loaded_dmem (s : State) (p : List Instr) : (s.loaded p).dmem = s.dmem := rfl
@[simp] theorem loaded_pc (s : State) (p : List Instr) : (s.loaded p).pc = 0 := rfl
@[simp] theorem loaded_retired (s : State) (p : List Instr) : (s.loaded p).retired = 0 := rfl
@[simp] theorem loaded_ifId (s : State) (p : List Instr) : (s.loaded p).ifId = .bubble := rfl
@[simp] theorem loaded_idEx (s : State) (p : List Instr) : (s.loaded p).idEx = .bubble := rfl
@[simp] theorem loaded_exMem (s : State) (p : List Instr) : (s.loaded p).exMem = .bubble := rfl
@[simp] theorem loaded_memWb (s : State) (p : List Instr) : (s.loaded p).memWb = .bubble := rfl
@[simp] theorem loaded_fault (s : State) (p : List Instr) : (s.loaded p).fault = none := rfl
@[simp] theorem loaded_prog (s : State) (p : List Instr) : (s.loaded p).prog = p := rfl

/-! `loadedAndDecoded` is `loaded` with the instruction in `ID_EX`. -/

@[simp] theorem loadedAndDecoded_x (s : State) (i : Instr) : (s.loadedAndDecoded i).x = s.x := rfl
@[simp] theorem loadedAndDecoded_dmem (s : State) (i : Instr) : (s.loadedAndDecoded i).dmem = s.dmem := rfl
@[simp] theorem loadedAndDecoded_pc (s : State) (i : Instr) : (s.loadedAndDecoded i).pc = 1 := rfl
@[simp] theorem loadedAndDecoded_retired (s : State) (i : Instr) : (s.loadedAndDecoded i).retired = 0 := rfl
@[simp] theorem loadedAndDecoded_ifId (s : State) (i : Instr) : (s.loadedAndDecoded i).ifId = .bubble := rfl
@[simp] theorem loadedAndDecoded_idEx (s : State) (i : Instr) : (s.loadedAndDecoded i).idEx = .inFlight (.fetched i) := rfl
@[simp] theorem loadedAndDecoded_exMem (s : State) (i : Instr) : (s.loadedAndDecoded i).exMem = .bubble := rfl
@[simp] theorem loadedAndDecoded_memWb (s : State) (i : Instr) : (s.loadedAndDecoded i).memWb = .bubble := rfl
@[simp] theorem loadedAndDecoded_fault (s : State) (i : Instr) : (s.loadedAndDecoded i).fault = none := rfl
@[simp] theorem loadedAndDecoded_prog (s : State) (i : Instr) : (s.loadedAndDecoded i).prog = [i] := rfl

/-! `publish` takes every primed value together. -/

@[simp] theorem publish_x (s : State) (x' : Regs) (n : Nat) (m : Mem) (mw em : Latch) : (publish s x' n m mw em).x = x' := rfl
@[simp] theorem publish_dmem (s : State) (x' : Regs) (n : Nat) (m : Mem) (mw em : Latch) : (publish s x' n m mw em).dmem = m := rfl
@[simp] theorem publish_pc (s : State) (x' : Regs) (n : Nat) (m : Mem) (mw em : Latch) : (publish s x' n m mw em).pc = (fetchStage s).2 := rfl
@[simp] theorem publish_retired (s : State) (x' : Regs) (n : Nat) (m : Mem) (mw em : Latch) : (publish s x' n m mw em).retired = n := rfl
@[simp] theorem publish_ifId (s : State) (x' : Regs) (n : Nat) (m : Mem) (mw em : Latch) : (publish s x' n m mw em).ifId = (fetchStage s).1 := rfl
@[simp] theorem publish_idEx (s : State) (x' : Regs) (n : Nat) (m : Mem) (mw em : Latch) : (publish s x' n m mw em).idEx = decodeStage s := rfl
@[simp] theorem publish_exMem (s : State) (x' : Regs) (n : Nat) (m : Mem) (mw em : Latch) : (publish s x' n m mw em).exMem = em := rfl
@[simp] theorem publish_memWb (s : State) (x' : Regs) (n : Nat) (m : Mem) (mw em : Latch) : (publish s x' n m mw em).memWb = mw := rfl
@[simp] theorem publish_fault (s : State) (x' : Regs) (n : Nat) (m : Mem) (mw em : Latch) : (publish s x' n m mw em).fault = none := rfl
@[simp] theorem publish_prog (s : State) (x' : Regs) (n : Nat) (m : Mem) (mw em : Latch) : (publish s x' n m mw em).prog = s.prog := rfl

/-! `afterReset` keeps the program only. -/

@[simp] theorem afterReset_x (s : State) : (s.afterReset).x = State.reset.x := rfl
@[simp] theorem afterReset_dmem (s : State) : (s.afterReset).dmem = State.reset.dmem := rfl
@[simp] theorem afterReset_pc (s : State) : (s.afterReset).pc = State.reset.pc := rfl
@[simp] theorem afterReset_retired (s : State) : (s.afterReset).retired = State.reset.retired := rfl
@[simp] theorem afterReset_ifId (s : State) : (s.afterReset).ifId = State.reset.ifId := rfl
@[simp] theorem afterReset_idEx (s : State) : (s.afterReset).idEx = State.reset.idEx := rfl
@[simp] theorem afterReset_exMem (s : State) : (s.afterReset).exMem = State.reset.exMem := rfl
@[simp] theorem afterReset_memWb (s : State) : (s.afterReset).memWb = State.reset.memWb := rfl
@[simp] theorem afterReset_fault (s : State) : (s.afterReset).fault = State.reset.fault := rfl
@[simp] theorem afterReset_prog (s : State) : (s.afterReset).prog = s.prog := rfl

/-! `emptied` empties the latches only. -/

@[simp] theorem emptied_x (s : State) : (s.emptied).x = s.x := rfl
@[simp] theorem emptied_dmem (s : State) : (s.emptied).dmem = s.dmem := rfl
@[simp] theorem emptied_pc (s : State) : (s.emptied).pc = s.pc := rfl
@[simp] theorem emptied_retired (s : State) : (s.emptied).retired = s.retired := rfl
@[simp] theorem emptied_ifId (s : State) : (s.emptied).ifId = .bubble := rfl
@[simp] theorem emptied_idEx (s : State) : (s.emptied).idEx = .bubble := rfl
@[simp] theorem emptied_exMem (s : State) : (s.emptied).exMem = .bubble := rfl
@[simp] theorem emptied_memWb (s : State) : (s.emptied).memWb = .bubble := rfl
@[simp] theorem emptied_fault (s : State) : (s.emptied).fault = s.fault := rfl
@[simp] theorem emptied_prog (s : State) : (s.emptied).prog = s.prog := rfl

/-! Two cycles bring a freshly loaded one-instruction program to `loadedAndDecoded`. -/

/-- Fetch then Decode of a one-instruction program: what `withFetchWord` stands for after `load` (log entry 2). -/
theorem loadedAndDecoded_is_two_cycles (s : State) (i : Instr) :
    (bubbleCycle (s.loaded [i])).bind bubbleCycle = .next (s.loadedAndDecoded i) := rfl

end Sys2Proof.Laws
end

