-- ==== Sys2Proof/Laws/Ops.lean ====
section
/-! SUPPORT. What the shared operations of Machine/Ops.lean do: chaining of results, registers, data memory and its canonical form,
address checks. -/

namespace Sys2Proof.Laws

open Sys2Proof.Machine

section Results

variable {α β : Type}

@[simp] theorem bind_next (a : α) (k : α → Result β) : Result.bind (.next a) k = k a := rfl
@[simp] theorem bind_fault (f : Fault) (k : α → Result β) : Result.bind (.fault f) k = .fault f := rfl
@[simp] theorem bind_refused (q : Refusal) (k : α → Result β) : Result.bind (.refused q) k = .refused q := rfl

/-- A chain answers a value exactly when its first part does and the rest does on that value. -/
theorem bind_eq_next {r : Result α} {k : α → Result β} {b : β} :
    r.bind k = .next b ↔ ∃ a, r = .next a ∧ k a = .next b := by
  cases r <;> simp [Result.bind]

/-- A chain faults in its first part, or in the rest on the first part's value. -/
theorem bind_eq_fault {r : Result α} {k : α → Result β} {f : Fault} :
    r.bind k = .fault f ↔ r = .fault f ∨ ∃ a, r = .next a ∧ k a = .fault f := by
  cases r <;> simp [Result.bind]

/-- A chain is refused in its first part, or in the rest on the first part's value. -/
theorem bind_eq_refused {r : Result α} {k : α → Result β} {q : Refusal} :
    r.bind k = .refused q ↔ r = .refused q ∨ ∃ a, r = .next a ∧ k a = .refused q := by
  cases r <;> simp [Result.bind]

end Results

section Registers

/-- A write to a register other than 0 is what that register reads next; every other register reads as before. -/
theorem readReg_writeReg (x : Regs) (i j : Reg) (v : Word) :
    readReg (writeReg x i v) j = if j = i ∧ i ≠ 0 then v else readReg x j := by
  unfold readReg writeReg
  by_cases hi : i = 0
  · simp [hi]
  · by_cases hj : j = i
    · subst hj
      simp [hi]
    · have hne : i.val ≠ j.val := fun h => hj (Fin.ext h.symm)
      simp [hi, hj, hne]

/-- Register writes leave the stored word of register 0 alone. -/
theorem writeReg_zero_word (x : Regs) (i : Reg) (v : Word) : (writeReg x i v)[0] = x[0] := by
  unfold writeReg
  by_cases hi : i = 0
  · simp [hi]
  · have hne : i.val ≠ 0 := fun h => hi (Fin.ext h)
    simp [hi, hne]

end Registers

section DataMemory

/-- Canonical from a higher index on is canonical from a lower one on. -/
theorem wfFrom_mono {lo lo' : Nat} {m : Mem} (h : lo' ≤ lo) (hm : Mem.wfFrom lo m = true) : Mem.wfFrom lo' m = true := by
  cases m with
  | nil => rfl
  | cons e m =>
    obtain ⟨j, v⟩ := e
    simp only [Mem.wfFrom, Bool.and_eq_true, decide_eq_true_eq] at hm ⊢
    exact ⟨⟨⟨by omega, hm.1.1.2⟩, hm.1.2⟩, hm.2⟩

/-- A word below the first index the form allows is not listed. -/
theorem read_below {lo k : Nat} {m : Mem} (hm : Mem.wfFrom lo m = true) (hk : k < lo) : Mem.read m k = Mem.unlisted := by
  induction m generalizing lo with
  | nil => rfl
  | cons e m ih =>
    obtain ⟨j, v⟩ := e
    simp only [Mem.wfFrom, Bool.and_eq_true, decide_eq_true_eq] at hm
    have hne : j ≠ k := by omega
    simp only [Mem.read, if_neg hne]
    exact ih hm.2 (by omega)

/-- A write keeps the canonical form. -/
theorem write_wfFrom {lo k : Nat} {v : Word} {m : Mem} (hm : Mem.wfFrom lo m = true) (hlo : lo ≤ k)
    (hk : k < Config.dmemWords) : Mem.wfFrom lo (Mem.write m k v) = true := by
  induction m generalizing lo with
  | nil =>
    simp only [Mem.write]
    split
    · rfl
    · simp_all [Mem.wfFrom]
  | cons e m ih =>
    obtain ⟨j, u⟩ := e
    have hm' := hm
    simp only [Mem.wfFrom, Bool.and_eq_true, decide_eq_true_eq] at hm
    simp only [Mem.write]
    split
    · split
      · exact hm'
      · simp only [Mem.wfFrom, Bool.and_eq_true, decide_eq_true_eq]
        exact ⟨⟨⟨hlo, hk⟩, by assumption⟩, ⟨⟨by omega, hm.1.1.2⟩, hm.1.2⟩, hm.2⟩
    · split
      · split
        · exact wfFrom_mono (by omega) hm.2
        · subst_vars
          simp only [Mem.wfFrom, Bool.and_eq_true, decide_eq_true_eq]
          exact ⟨⟨⟨hlo, hk⟩, by assumption⟩, hm.2⟩
      · simp only [Mem.wfFrom, Bool.and_eq_true, decide_eq_true_eq]
        exact ⟨hm.1, ih hm.2 (by omega)⟩

/-- Every write of a word of data memory keeps the canonical form. -/
theorem write_keeps_wf {m : Mem} (hm : Mem.wf m = true) {k : Nat} (hk : k < Config.dmemWords) (v : Word) :
    Mem.wf (Mem.write m k v) = true :=
  write_wfFrom hm (Nat.zero_le k) hk

/-- In canonical form, a write is what its word reads next, and every other word reads as before. -/
theorem read_write_from {lo k l : Nat} {v : Word} {m : Mem} (hm : Mem.wfFrom lo m = true) :
    Mem.read (Mem.write m k v) l = if l = k then v else Mem.read m l := by
  induction m generalizing lo with
  | nil =>
    by_cases hv : v = Mem.unlisted <;> by_cases hl : l = k
    · simp [Mem.write, Mem.read, hv]
    · simp [Mem.write, Mem.read, hv]
    · simp [Mem.write, Mem.read, hv, hl]
    · simp [Mem.write, Mem.read, hv, hl, show k ≠ l from fun h => hl h.symm]
  | cons e m ih =>
    obtain ⟨j, u⟩ := e
    simp only [Mem.wfFrom, Bool.and_eq_true, decide_eq_true_eq] at hm
    have ih := ih hm.2
    have hbelow : ∀ n, n ≤ j → Mem.read m n = Mem.unlisted := fun n hn => read_below hm.2 (by omega)
    simp only [Mem.write]
    by_cases hkj : k < j
    · by_cases hv : v = Mem.unlisted <;> by_cases hl : l = k
      · subst hl
        have := hbelow l (by omega)
        simp [hkj, hv, Mem.read, this, show j ≠ l by omega]
      · simp [hkj, hv, hl, Mem.read]
      · subst hl
        simp [hkj, hv, Mem.read]
      · simp [hkj, hv, hl, Mem.read, show k ≠ l from fun h => hl h.symm]
    · by_cases hke : k = j
      · subst hke
        by_cases hv : v = Mem.unlisted <;> by_cases hl : l = k
        · subst hl
          simp [hv, hbelow l (by omega)]
        · simp [hv, hl, Mem.read, show k ≠ l from fun h => hl h.symm]
        · subst hl
          simp [hv, Mem.read]
        · simp [hv, hl, Mem.read, show k ≠ l from fun h => hl h.symm]
      · simp only [if_neg hkj, if_neg hke, Mem.read, ih]
        by_cases hjl : j = l
        · subst hjl
          simp [show j ≠ k from fun h => hke h.symm]
        · simp [hjl]

/-- `read_write_from` for a memory in canonical form. -/
theorem read_write {m : Mem} (hm : Mem.wf m = true) (k l : Nat) (v : Word) :
    Mem.read (Mem.write m k v) l = if l = k then v else Mem.read m l :=
  read_write_from (lo := 0) hm

/-- In any memory, a write leaves every other word as it was. -/
theorem read_write_ne {m : Mem} {k l : Nat} (h : l ≠ k) (v : Word) : Mem.read (Mem.write m k v) l = Mem.read m l := by
  have h' : k ≠ l := fun e => h e.symm
  induction m with
  | nil => by_cases hv : v = Mem.unlisted <;> simp [Mem.write, Mem.read, hv, h']
  | cons e m ih =>
    obtain ⟨j, u⟩ := e
    by_cases hkj : k < j
    · by_cases hv : v = Mem.unlisted <;> simp [Mem.write, Mem.read, hkj, hv, h']
    · by_cases hke : k = j
      · subst hke
        by_cases hv : v = Mem.unlisted <;> simp [Mem.write, Mem.read, hv, h']
      · simp [Mem.write, Mem.read, hkj, hke, ih]

/-- The reset memory is in canonical form. -/
theorem reset_mem_wf : Mem.wf State.reset.dmem = true := rfl

end DataMemory

section Addresses

/-- An address is at no fault exactly when it is aligned and in range. -/
theorem addressFault_eq_none (a : Word) : addressFault a = none ↔ a.toNat % 4 = 0 ∧ a.toNat < 4096 := by
  unfold addressFault aligned inRange
  simp only [Config.wordBytes, Config.dmemWords]
  by_cases h1 : a.toNat % 4 = 0 <;> by_cases h2 : a.toNat < 4096 <;> simp [h1, h2]

/-- The word of an address at no fault exists. -/
theorem wordIndex_lt {a : Word} (h : addressFault a = none) : wordIndex a < Config.dmemWords := by
  have := (addressFault_eq_none a).mp h
  unfold wordIndex
  simp only [Config.wordBytes, Config.dmemWords]
  omega

/-- A checked access answers what it answers unless its address is at fault, and then raises that fault. -/
theorem checked_eq {α : Type} (a : Word) (k : Result α) :
    checked a k = match addressFault a with | some f => .fault f | none => k := rfl

/-- A checked access that answers had an address at no fault. -/
theorem checked_next {α : Type} {a : Word} {k : Result α} {b : α} :
    checked a k = .next b ↔ addressFault a = none ∧ k = .next b := by
  unfold checked
  cases addressFault a <;> simp [raise]

/-- A store at an address at no fault keeps the canonical form. -/
theorem memWrite_keeps_wf {m : Mem} (hm : Mem.wf m = true) {a : Word} (ha : addressFault a = none) (v : Word) :
    Mem.wf (memWrite m a v) = true :=
  write_keeps_wf hm (wordIndex_lt ha) v

end Addresses

end Sys2Proof.Laws
end

