-- ==== Sys2Proof/Laws/Operands.lean ====
section
/-! SUPPORT. What the operations of Machine/Operands.lean can answer: operand roles, producers, the forwarding unit. -/

namespace Sys2Proof.Laws

open Sys2Proof.Machine

/-- Only an `LW` has a load destination, and it is its destination. -/
theorem loadDest_eq_some {i : Instr} {r : Reg} : loadDest i = some r ↔ ∃ rs imm, i = .lw r rs imm := by
  cases i <;> simp [loadDest]

/-- A load destination is a destination. -/
theorem dest_of_loadDest {i : Instr} {r : Reg} (h : loadDest i = some r) : dest i = some r := by
  obtain ⟨rs, imm, rfl⟩ := loadDest_eq_some.mp h
  rfl

/-- The load-use condition, spelled out. -/
theorem loadUse_iff {p c : Instr} : loadUse p c = true ↔ ∃ r, loadDest p = some r ∧ r ≠ 0 ∧ r ∈ srcs c := by
  unfold loadUse
  cases h : loadDest p <;> simp

/-- A latch has a producer of `r` exactly when it holds a record whose destination is `r`. -/
theorem producerOf_eq_some {l : Latch} {r : Reg} {p : InFlight} :
    producerOf l r = some p ↔ l = .inFlight p ∧ dest p.instr = some r := by
  cases l with
  | bubble => simp [producerOf]
  | inFlight q =>
    simp only [producerOf, Latch.inFlight.injEq]
    split
    · constructor
      · rintro ⟨⟩
        exact ⟨rfl, by assumption⟩
      · rintro ⟨rfl, -⟩
        rfl
    · constructor
      · simp
      · rintro ⟨rfl, h⟩
        contradiction

/-- A latch without a producer of `r` is a `Bubble` or holds a record with another destination, or none. -/
theorem producerOf_eq_none {l : Latch} {r : Reg} :
    producerOf l r = none ↔ ∀ p, l = .inFlight p → dest p.instr ≠ some r := by
  cases l <;> simp [producerOf]

/-- Register 0 is never forwarded (R117). -/
@[simp] theorem forward_zero (x : Regs) (em mw : Latch) : forward x em mw 0 = .next 0#32 := rfl

/-- Everything the forwarding unit can answer a value from: register 0, `EX_MEM`, `MEM_WB`, the register file, in this order. -/
theorem forward_next {x : Regs} {em mw : Latch} {r : Reg} {v : Word} (h : forward x em mw r = .next v) :
    (r = 0 ∧ v = 0#32) ∨
    (r ≠ 0 ∧ ∃ p, producerOf em r = some p ∧ p.result = some v) ∨
    (r ≠ 0 ∧ producerOf em r = none ∧ ∃ q, producerOf mw r = some q ∧ q.result = some v) ∨
    (r ≠ 0 ∧ producerOf em r = none ∧ producerOf mw r = none ∧ v = readReg x r) := by
  unfold forward at h
  split at h
  · simp_all
  · right
    split at h
    · left
      rename_i hr _ p hp
      refine ⟨hr, p, hp, ?_⟩
      unfold forwardedFromExMem at h
      split at h
      · simp_all
      · split at h <;> simp_all
    · right
      split at h
      · left
        rename_i hr _ hn _ q hq
        refine ⟨hr, hn, q, hq, ?_⟩
        unfold forwardedFromMemWb at h
        split at h <;> simp_all
      · right
        simp_all

/-- The forwarding unit never faults (R126). -/
theorem forward_ne_fault (x : Regs) (em mw : Latch) (r : Reg) (f : Fault) : forward x em mw r ≠ .fault f := by
  unfold forward forwardedFromExMem forwardedFromMemWb
  repeat' split
  all_goals simp

end Sys2Proof.Laws
end

