-- ==== Sys2Proof/Laws/Cycle.lean ====
section
/-! SUPPORT. Everything a stage step and a cycle can do, said once: inversion lemmas for Write-Back, Memory, the cycle, `exec` and `step`,
which later proofs cite instead of unfolding. -/

namespace Sys2Proof.Laws

open Sys2Proof.Machine

/-- Write-Back answers: nothing to do, a record that writes no register, or one whose result goes to its destination. -/
theorem writeBackStage_next {s : State} {x' : Regs} {n' : Nat} (h : writeBackStage s = .next (x', n')) :
    (s.memWb = .bubble ∧ x' = s.x ∧ n' = s.retired) ∨
    (∃ q, s.memWb = .inFlight q ∧ n' = s.retired + retireCount q ∧
      ((dest q.instr = none ∧ x' = s.x) ∨ (dest q.instr = some 0 ∧ x' = s.x) ∨
       (∃ d w, dest q.instr = some d ∧ d ≠ 0 ∧ q.result = some w ∧ x' = writeReg s.x d w))) := by
  unfold writeBackStage at h
  split at h
  · simp_all
  · rename_i q hq
    obtain ⟨y, hy, hk⟩ := bind_eq_next.mp h
    obtain ⟨rfl, rfl⟩ : y = x' ∧ s.retired + retireCount q = n' := by simpa using hk
    refine .inr ⟨q, hq, rfl, ?_⟩
    unfold commit at hy
    split at hy
    · simp_all
    · rename_i d hd
      split at hy
      · simp_all
      · split at hy
        · rename_i hd0 _ w hw
          exact .inr (.inr ⟨d, w, hd, hd0, hw, by simpa using hy.symm⟩)
        · simp at hy

/-- Write-Back never faults (R138). -/
theorem writeBackStage_ne_fault (s : State) (f : Fault) : writeBackStage s ≠ .fault f := by
  unfold writeBackStage commit
  repeat' split
  all_goals simp [Result.bind]

/-- Memory answers: a `Bubble`, a record passed on, a load of the word at an address at no fault, or a store there. -/
theorem memoryStage_next {s : State} {m' : Mem} {mw' : Latch} (h : memoryStage s = .next (m', mw')) :
    (s.exMem = .bubble ∧ m' = s.dmem ∧ mw' = .bubble) ∨
    (∃ p, s.exMem = .inFlight p ∧ memAccess p.instr = .pass ∧ m' = s.dmem ∧ mw' = .inFlight p) ∨
    (∃ p a, s.exMem = .inFlight p ∧ memAccess p.instr = .load ∧ p.address = some a ∧ addressFault a = none ∧
      m' = s.dmem ∧ mw' = .inFlight { p with result := some (memRead s.dmem a) }) ∨
    (∃ p a v, s.exMem = .inFlight p ∧ memAccess p.instr = .store ∧ p.address = some a ∧ addressFault a = none ∧
      p.storeValue = some v ∧ m' = memWrite s.dmem a v ∧ mw' = .inFlight p) := by
  unfold memoryStage at h
  split at h
  · simp_all
  · rename_i p hp
    right
    split at h
    · rename_i hm
      unfold loadInMemory at h
      split at h
      · simp at h
      · rename_i a ha
        obtain ⟨hf, hk⟩ := checked_next.mp h
        obtain ⟨rfl, rfl⟩ : s.dmem = m' ∧ Latch.inFlight { p with result := some (memRead s.dmem a) } = mw' := by
          simpa using hk
        exact .inr (.inl ⟨p, a, hp, hm, ha, hf, rfl, rfl⟩)
    · rename_i hm
      unfold storeInMemory at h
      split at h
      · simp at h
      · rename_i a ha
        obtain ⟨hf, hk⟩ := checked_next.mp h
        split at hk
        · simp at hk
        · rename_i v hv
          obtain ⟨rfl, rfl⟩ : memWrite s.dmem a v = m' ∧ Latch.inFlight p = mw' := by simpa using hk
          exact .inr (.inr ⟨p, a, v, hp, hm, ha, hf, hv, rfl, rfl⟩)
    · rename_i hm
      obtain ⟨rfl, rfl⟩ : s.dmem = m' ∧ Latch.inFlight p = mw' := by simpa using h
      exact .inl ⟨p, hp, hm, rfl, rfl⟩

/-- A cycle answers exactly when no fault is recorded and Write-Back, Memory and Execute all answer; it then publishes what they did. -/
theorem cycleWith_next {ex : Regs → Result Latch} {s t : State} :
    cycleWith ex s = .next t ↔ s.fault = none ∧ ∃ x' n' m' mw' em', writeBackStage s = .next (x', n') ∧
      memoryStage s = .next (m', mw') ∧ ex x' = .next em' ∧ t = publish s x' n' m' mw' em' := by
  unfold cycleWith
  cases hf : s.fault with
  | some f => simp
  | none =>
    simp only [bind_eq_next, Prod.exists, true_and]
    constructor
    · rintro ⟨x', n', hw, m', mw', hm, em', he, hp⟩
      exact ⟨x', n', m', mw', em', hw, hm, he, by simpa using hp.symm⟩
    · rintro ⟨x', n', m', mw', em', hw, hm, he, rfl⟩
      exact ⟨x', n', hw, m', mw', hm, em', he, rfl⟩

/-- What Execute computes for each instruction, as `executeCycle` takes it. -/
def fillOf (i : Instr) (x : Regs) (s : State) (r : InFlight) : Result InFlight :=
  match i with
  | .add _ rs rt => (operand x s rs).bind fun a => (operand x s rt).bind fun b => .next { r with result := some (aluAdd a b) }
  | .sub _ rs rt => (operand x s rs).bind fun a => (operand x s rt).bind fun b => .next { r with result := some (aluSub a b) }
  | .and _ rs rt => (operand x s rs).bind fun a => (operand x s rt).bind fun b => .next { r with result := some (aluAnd a b) }
  | .or _ rs rt => (operand x s rs).bind fun a => (operand x s rt).bind fun b => .next { r with result := some (aluOr a b) }
  | .slt _ rs rt => (operand x s rs).bind fun a => (operand x s rt).bind fun b => .next { r with result := some (setLess a b) }
  | .addi _ rs imm => (operand x s rs).bind fun a => .next { r with result := some (aluAdd a (sext imm)) }
  | .slti _ rs imm => (operand x s rs).bind fun a => .next { r with result := some (setLess a (sext imm)) }
  | .lw _ rs imm => (operand x s rs).bind fun a => .next { r with address := some (effectiveAddress a imm) }
  | .sw rt rs imm => (operand x s rs).bind fun a => (operand x s rt).bind fun v =>
      .next { r with address := some (effectiveAddress a imm), storeValue := some v }
  | .nop => .next r

/-- Every meaning is the cycle in which Execute consumes its instruction, with its own fields filled in. -/
theorem exec_eq (i : Instr) (s : State) : exec i s = executeCycle i (fillOf i) s := by
  cases i <;> rfl

/-- Whatever Execute fills in, the instruction of the record stays (R31). -/
theorem fillOf_instr {i : Instr} {x : Regs} {s : State} {r r' : InFlight} (h : fillOf i x s r = .next r') :
    r'.instr = r.instr := by
  cases i <;> simp only [fillOf, bind_eq_next] at h
  all_goals
    first
    | obtain ⟨_, _, _, _, h⟩ := h; cases h; rfl
    | obtain ⟨_, _, h⟩ := h; cases h; rfl
    | cases h; rfl

/-- Execute never faults (R143). -/
theorem fillOf_ne_fault (i : Instr) (x : Regs) (s : State) (r : InFlight) (f : Fault) : fillOf i x s r ≠ .fault f := by
  intro h
  cases i <;> simp [fillOf, bind_eq_fault, operand, forward_ne_fault] at h

/-- The record Execute consumes is one of the instruction asked for. -/
@[simp] theorem recordInExecute_instr (i : Instr) (s : State) : (recordInExecute i s).instr = i := by
  unfold recordInExecute
  repeat' split
  all_goals simp_all [InFlight.fetched]

/-- A record in `ID_EX` is the one Execute consumes. -/
theorem recordInExecute_of_idEx {s : State} {r : InFlight} (h : s.idEx = .inFlight r) : recordInExecute r.instr s = r := by
  simp [recordInExecute, h]

/-- Where `ID_EX` already holds the instruction, issuing it changes nothing. -/
theorem issued_of_idEx {s : State} {r : InFlight} (h : s.idEx = .inFlight r) : s.issued r.instr = s := by
  obtain ⟨⟩ := s
  simp_all [State.issued, recordInExecute]

/-- Everything a meaning can answer: the publication of Write-Back, Memory and the instruction's own fields. -/
theorem exec_next {i : Instr} {s t : State} :
    exec i s = .next t ↔ s.fault = none ∧ ∃ x' n' m' mw' r', writeBackStage s = .next (x', n') ∧
      memoryStage s = .next (m', mw') ∧ fillOf i x' s (recordInExecute i s) = .next r' ∧
      t = publish (s.issued i) x' n' m' mw' (.inFlight r') := by
  rw [exec_eq, executeCycle, cycleWith_next]
  have hw : writeBackStage (s.issued i) = writeBackStage s := rfl
  have hm : memoryStage (s.issued i) = memoryStage s := rfl
  simp only [hw, hm, issued_fault, bind_eq_next]
  constructor
  · rintro ⟨hf, x', n', m', mw', em', h1, h2, ⟨r', h3, h4⟩, h5⟩
    cases h4
    exact ⟨hf, x', n', m', mw', r', h1, h2, h3, h5⟩
  · rintro ⟨hf, x', n', m', mw', r', h1, h2, h3, h5⟩
    exact ⟨hf, x', n', m', mw', _, h1, h2, ⟨r', h3, rfl⟩, h5⟩

/-- Everything a cycle with a `Bubble` in Execute can answer. -/
theorem bubbleCycle_next {s t : State} :
    bubbleCycle s = .next t ↔ s.fault = none ∧ ∃ x' n' m' mw', writeBackStage s = .next (x', n') ∧
      memoryStage s = .next (m', mw') ∧ t = publish s x' n' m' mw' .bubble := by
  rw [bubbleCycle, cycleWith_next]
  constructor
  · rintro ⟨hf, x', n', m', mw', em', h1, h2, h3, h4⟩
    cases h3
    exact ⟨hf, x', n', m', mw', h1, h2, h4⟩
  · rintro ⟨hf, x', n', m', mw', h1, h2, h4⟩
    exact ⟨hf, x', n', m', mw', _, h1, h2, rfl, h4⟩

/-- A step is the meaning of the instruction in `ID_EX`, or a cycle with a `Bubble` in Execute. -/
theorem step_eq (s : State) :
    step s = match s.idEx with | .bubble => bubbleCycle s | .inFlight r => exec r.instr s := rfl

end Sys2Proof.Laws
end

