-- ==== Sys2Proof/Laws/Decode.lean ====
section
/-! SUPPORT. The fields of a word as numbers, and each field of an encoded word is what was put there (30_encoding.md rules R81, R82,
R85). -/

namespace Sys2Proof.Laws

/-- A format R word as a sum of its fields at their places (R81). -/
theorem encodeR_toNat (funct : BitVec 6) (rd rs rt : Reg) :
    (encodeR funct rd rs rt).toNat = rs.val * 2 ^ 21 + rt.val * 2 ^ 16 + rd.val * 2 ^ 11 + funct.toNat := by
  have h1 := rs.isLt; have h2 := rt.isLt; have h3 := rd.isLt; have h4 := funct.isLt
  simp only [encodeR, regBits, BitVec.toNat_append, BitVec.toNat_ofFin, BitVec.toNat_ofNat]
  rw [← Nat.shiftLeft_add_eq_or_of_lt h4,
    ← Nat.shiftLeft_add_eq_or_of_lt (by decide),
    ← Nat.shiftLeft_add_eq_or_of_lt h3,
    ← Nat.shiftLeft_add_eq_or_of_lt h2,
    ← Nat.shiftLeft_add_eq_or_of_lt h1]
  simp only [Nat.shiftLeft_eq]; omega

/-- A format I word as a sum of its fields at their places (R82). -/
theorem encodeI_toNat (opcode6 : BitVec 6) (rt rs : Reg) (imm : Imm) :
    (encodeI opcode6 rt rs imm).toNat = opcode6.toNat * 2 ^ 26 + rs.val * 2 ^ 21 + rt.val * 2 ^ 16 + imm.toNat := by
  have h1 := rs.isLt; have h2 := rt.isLt; have h3 := imm.isLt
  simp only [encodeI, regBits, BitVec.toNat_append, BitVec.toNat_ofFin]
  rw [← Nat.shiftLeft_add_eq_or_of_lt h3,
    ← Nat.shiftLeft_add_eq_or_of_lt h2,
    ← Nat.shiftLeft_add_eq_or_of_lt h1]
  simp only [Nat.shiftLeft_eq]; omega

/-- The fields of a word as quotients and remainders (R81, R82). -/
theorem fieldOpcode_toNat (w : Word) : (fieldOpcode w).toNat = w.toNat / 2 ^ 26 % 2 ^ 6 := by
  simp [fieldOpcode, BitVec.extractLsb'_toNat, Nat.shiftRight_eq_div_pow]

theorem fieldRs_val (w : Word) : (fieldRs w).val = w.toNat / 2 ^ 21 % 2 ^ 5 := by
  simp [fieldRs, Nat.shiftRight_eq_div_pow]

theorem fieldRt_val (w : Word) : (fieldRt w).val = w.toNat / 2 ^ 16 % 2 ^ 5 := by
  simp [fieldRt, Nat.shiftRight_eq_div_pow]

theorem fieldRd_val (w : Word) : (fieldRd w).val = w.toNat / 2 ^ 11 % 2 ^ 5 := by
  simp [fieldRd, Nat.shiftRight_eq_div_pow]

theorem fieldShamt_toNat (w : Word) : (fieldShamt w).toNat = w.toNat / 2 ^ 6 % 2 ^ 5 := by
  simp [fieldShamt, BitVec.extractLsb'_toNat, Nat.shiftRight_eq_div_pow]

theorem fieldFunct_toNat (w : Word) : (fieldFunct w).toNat = w.toNat % 2 ^ 6 := by
  simp [fieldFunct, BitVec.extractLsb'_toNat]

theorem fieldImm_toNat (w : Word) : (fieldImm w).toNat = w.toNat % 2 ^ 16 := by
  simp [fieldImm, BitVec.extractLsb'_toNat]

/-! ### A format R word -/

section

variable (funct : BitVec 6) (rd rs rt : Reg)

theorem fieldOpcode_encodeR : fieldOpcode (encodeR funct rd rs rt) = 0#6 := by
  apply BitVec.eq_of_toNat_eq; rw [fieldOpcode_toNat, encodeR_toNat]
  have := funct.isLt; simp; omega

theorem fieldRs_encodeR : fieldRs (encodeR funct rd rs rt) = rs := by
  apply Fin.ext; rw [fieldRs_val, encodeR_toNat]; have := funct.isLt; omega

theorem fieldRt_encodeR : fieldRt (encodeR funct rd rs rt) = rt := by
  apply Fin.ext; rw [fieldRt_val, encodeR_toNat]; have := funct.isLt; omega

theorem fieldRd_encodeR : fieldRd (encodeR funct rd rs rt) = rd := by
  apply Fin.ext; rw [fieldRd_val, encodeR_toNat]; have := funct.isLt; omega

theorem fieldShamt_encodeR : fieldShamt (encodeR funct rd rs rt) = 0#5 := by
  apply BitVec.eq_of_toNat_eq; rw [fieldShamt_toNat, encodeR_toNat]
  have := funct.isLt; simp; omega

theorem fieldFunct_encodeR : fieldFunct (encodeR funct rd rs rt) = funct := by
  apply BitVec.eq_of_toNat_eq; rw [fieldFunct_toNat, encodeR_toNat]; have := funct.isLt; omega

end
/-! ### A format I word -/

section

variable (opcode6 : BitVec 6) (rt rs : Reg) (imm : Imm)

theorem fieldOpcode_encodeI : fieldOpcode (encodeI opcode6 rt rs imm) = opcode6 := by
  apply BitVec.eq_of_toNat_eq; rw [fieldOpcode_toNat, encodeI_toNat]
  have := opcode6.isLt; have := imm.isLt; omega

theorem fieldRs_encodeI : fieldRs (encodeI opcode6 rt rs imm) = rs := by
  apply Fin.ext; rw [fieldRs_val, encodeI_toNat]; have := imm.isLt; omega

theorem fieldRt_encodeI : fieldRt (encodeI opcode6 rt rs imm) = rt := by
  apply Fin.ext; rw [fieldRt_val, encodeI_toNat]; have := imm.isLt; omega

theorem fieldImm_encodeI : fieldImm (encodeI opcode6 rt rs imm) = imm := by
  apply BitVec.eq_of_toNat_eq; rw [fieldImm_toNat, encodeI_toNat]; have := imm.isLt; omega

end

end Sys2Proof.Laws
end

