-- ==== Sys2Proof/Laws/HostInterface.lean ====
section
/-! SUPPORT. What each host operation answers, case by case (48_host_interface.md), and the fields of a snapshot. -/

namespace Sys2Proof.Laws

open Sys2Proof.Machine

/-! The snapshot has the elements of the state, and the flag it is given. -/

@[simp] theorem published_pc (s : State) : s.published.pc = s.pc := rfl
@[simp] theorem published_ifId (s : State) : s.published.ifId = s.ifId := rfl
@[simp] theorem published_idEx (s : State) : s.published.idEx = s.idEx := rfl
@[simp] theorem published_exMem (s : State) : s.published.exMem = s.exMem := rfl
@[simp] theorem published_memWb (s : State) : s.published.memWb = s.memWb := rfl
@[simp] theorem published_x (s : State) : s.published.x = s.x := rfl
@[simp] theorem published_dmem (s : State) : s.published.dmem = s.dmem := rfl
@[simp] theorem published_retired (s : State) : s.published.retired = s.retired := rfl
@[simp] theorem published_fault (s : State) : s.published.fault = s.fault := rfl
@[simp] theorem snapshot_toPublished (s : State) (b : Bool) : (s.snapshot b).toPublished = s.published := rfl
@[simp] theorem snapshot_stall (s : State) (b : Bool) : (s.snapshot b).stall = b := rfl

/-! `step` and the loop of `run`, by the outcome of the cycle. -/

theorem hostStep_of_next {s t : State} (h : step s = .next t) : hostStep s = (t, .stepped (t.snapshot (stallFlag s))) := by
  simp [hostStep, h]

theorem hostStep_of_fault {s : State} {f : Fault} (h : step s = .fault f) : hostStep s = (s.recordFault f, .faulted 0 f) := by
  simp [hostStep, h]

theorem hostStep_of_refused {s : State} {q : Refusal} (h : step s = .refused q) : hostStep s = (s, .refused q) := by
  simp [hostStep, h]

theorem runFrom_of_next {s t : State} (h : step s = .next t) (done more : Nat) (last : Snapshot) :
    runFrom done last s (more + 1) = runFrom (done + 1) (t.snapshot (stallFlag s)) t more := by
  simp [runFrom, h]

theorem runFrom_of_fault {s : State} {f : Fault} (h : step s = .fault f) (done more : Nat) (last : Snapshot) :
    runFrom done last s (more + 1) = (s.recordFault f, .faulted done f) := by
  simp [runFrom, h]

/-- Without a recorded fault, a positive `run` is its loop. -/
theorem hostRun_of_pos {s : State} {n : Int} (hf : s.fault = none) (hn : 0 < n) :
    hostRun n s = runFrom 0 (s.snapshot false) s n.toNat := by
  simp [hostRun, hf, Int.not_le.2 hn]

/-- Everything a poke can answer: the recorded fault, the poked state, or a bad argument. -/
theorem poked_cases (inRange : Bool) (s t : State) :
    (∃ f, s.fault = some f ∧ poked inRange s t = (s, .refused (.faulted f))) ∨
    (s.fault = none ∧ inRange = true ∧ poked inRange s t = (t, .done)) ∨
    (s.fault = none ∧ inRange = false ∧ poked inRange s t = (s, .badArgument)) := by
  cases hf : s.fault with
  | some f => exact .inl ⟨f, rfl, by simp [poked, hf]⟩
  | none => cases inRange <;> simp [poked, hf]

/-- Everything an edge with `step_en = 1` can answer: the state itself while `FAULT` is set, the host's `step`, or nothing where the
store is not the loaded program. -/
theorem portStep_cases (p : PortIn) (s : State) :
    (∃ f, s.fault = some f ∧ portStep p s = some s) ∨
    (s.fault = none ∧ storeAnswers p s = true ∧ portStep p s = some (hostStep s).1) ∨
    (s.fault = none ∧ storeAnswers p s = false ∧ portStep p s = none) := by
  cases hf : s.fault with
  | some f => exact .inl ⟨f, rfl, by simp [portStep, hf]⟩
  | none => cases hs : storeAnswers p s <;> simp [portStep, hf, hs]

end Sys2Proof.Laws
end

