-- ==== Sys2Proof/Laws/Loader.lean ====
section
/-! SUPPORT. What the loader does with a register or immediate field in range, and with a sequence, slot by slot. -/

namespace Sys2Proof.Laws

open Sys2Proof.Machine

/-- A register field that is a register's index names that register. -/
@[simp] theorem regOfField_val (r : Reg) : regOfField (some (r.val : Int)) = r := by
  apply Fin.ext
  simp [regOfField]

/-- An immediate field that is an immediate's signed reading is that immediate. -/
@[simp] theorem immOfField_toInt (imm : Imm) : immOfField (some imm.toInt) = imm := by
  simp [immOfField]

/-- A register's index is in range. -/
@[simp] theorem regFieldInRange_val (r : Reg) : regFieldInRange (some (r.val : Int)) = true := by
  have := r.isLt
  simp only [regFieldInRange, Config.nregs, decide_eq_true_eq]
  omega

/-- The signed reading of an immediate is in range. -/
theorem immInRange_toInt (imm : Imm) : -(2 ^ (Config.immBits - 1)) ≤ imm.toInt ∧ imm.toInt < 2 ^ (Config.immBits - 1) := by
  have h1 := BitVec.le_toInt imm
  have h2 := BitVec.toInt_lt (x := imm)
  exact ⟨h1, h2⟩

/-- Resolving nothing gives nothing. -/
@[simp] theorem resolveFrom_nil {α : Type} (res : α → Except RecordError Instr) (k : Nat) :
    resolveFrom res k [] = .ok [] := rfl

/-- A sequence resolves exactly when its first element does, below `PROG_MAX`, and the rest does from the next slot on. -/
theorem resolveFrom_cons_ok {α : Type} {res : α → Except RecordError Instr} {k : Nat} {a : α} {as : List α} {is : List Instr} :
    resolveFrom res k (a :: as) = .ok is ↔
      k < Config.progMax ∧ ∃ i js, res a = .ok i ∧ resolveFrom res (k + 1) as = .ok js ∧ is = i :: js := by
  rw [resolveFrom]
  by_cases hk : Config.progMax ≤ k
  · rw [if_pos hk]
    constructor
    · intro h
      cases h
    · rintro ⟨h, -⟩
      omega
  · rw [if_neg hk]
    have hk' : k < Config.progMax := by omega
    cases hi : res a with
    | error e =>
      constructor
      · intro h
        cases h
      · rintro ⟨-, i, js, h, -⟩
        cases h
    | ok i =>
      cases hj : resolveFrom res (k + 1) as with
      | error e =>
        constructor
        · intro h
          cases h
        · rintro ⟨-, i, js, -, h, -⟩
          cases h
      | ok js =>
        constructor
        · intro h
          cases h
          exact ⟨hk', i, js, rfl, rfl, rfl⟩
        · rintro ⟨-, i', js', h1, h2, rfl⟩
          cases h1
          cases h2
          rfl

end Sys2Proof.Laws
end

