-- ==== Sys2Proof/Laws/PerInstr.lean ====
section
/-! SUPPORT. Per instruction: the record it is passes every check of `load` and resolves to it again (30_encoding.md rules R70, R75). -/

namespace Sys2Proof.Laws

open Sys2Proof.Machine

/-- The record of the instruction is well formed, and `load` makes the instruction of it. -/
def RecordRoundTrip.Statement (i : Instr) : Prop := i.WellFormed ∧ resolve i.toRecord = .ok i

/-- A record that passes the three checks and reads as the instruction. -/
theorem recordRoundTrip_of {i : Instr} (h1 : i.toRecord.fieldsPresent = true) (h2 : i.toRecord.registersInRange = true)
    (h3 : i.toRecord.immInRange = true) (h4 : instrOfRecord i.toRecord = i) : RecordRoundTrip.Statement i :=
  ⟨⟨h1, h2, h3⟩, by simp [resolve, h1, h2, h3, h4]⟩

theorem RecordRoundTrip.add (rd rs rt : Reg) : RecordRoundTrip.Statement (.add rd rs rt) :=
  recordRoundTrip_of rfl (by simp [Instr.toRecord, Record.registersInRange]) rfl (by simp [Instr.toRecord, instrOfRecord])

theorem RecordRoundTrip.sub (rd rs rt : Reg) : RecordRoundTrip.Statement (.sub rd rs rt) :=
  recordRoundTrip_of rfl (by simp [Instr.toRecord, Record.registersInRange]) rfl (by simp [Instr.toRecord, instrOfRecord])

theorem RecordRoundTrip.and (rd rs rt : Reg) : RecordRoundTrip.Statement (.and rd rs rt) :=
  recordRoundTrip_of rfl (by simp [Instr.toRecord, Record.registersInRange]) rfl (by simp [Instr.toRecord, instrOfRecord])

theorem RecordRoundTrip.or (rd rs rt : Reg) : RecordRoundTrip.Statement (.or rd rs rt) :=
  recordRoundTrip_of rfl (by simp [Instr.toRecord, Record.registersInRange]) rfl (by simp [Instr.toRecord, instrOfRecord])

theorem RecordRoundTrip.slt (rd rs rt : Reg) : RecordRoundTrip.Statement (.slt rd rs rt) :=
  recordRoundTrip_of rfl (by simp [Instr.toRecord, Record.registersInRange]) rfl (by simp [Instr.toRecord, instrOfRecord])

theorem RecordRoundTrip.addi (rt rs : Reg) (imm : Imm) : RecordRoundTrip.Statement (.addi rt rs imm) :=
  recordRoundTrip_of rfl (by simp [Instr.toRecord, Record.registersInRange, regFieldInRange])
    (decide_eq_true (immInRange_toInt imm)) (by simp [Instr.toRecord, instrOfRecord])

theorem RecordRoundTrip.slti (rt rs : Reg) (imm : Imm) : RecordRoundTrip.Statement (.slti rt rs imm) :=
  recordRoundTrip_of rfl (by simp [Instr.toRecord, Record.registersInRange, regFieldInRange])
    (decide_eq_true (immInRange_toInt imm)) (by simp [Instr.toRecord, instrOfRecord])

theorem RecordRoundTrip.lw (rt rs : Reg) (imm : Imm) : RecordRoundTrip.Statement (.lw rt rs imm) :=
  recordRoundTrip_of rfl (by simp [Instr.toRecord, Record.registersInRange, regFieldInRange])
    (decide_eq_true (immInRange_toInt imm)) (by simp [Instr.toRecord, instrOfRecord])

theorem RecordRoundTrip.sw (rt rs : Reg) (imm : Imm) : RecordRoundTrip.Statement (.sw rt rs imm) :=
  recordRoundTrip_of rfl (by simp [Instr.toRecord, Record.registersInRange, regFieldInRange])
    (decide_eq_true (immInRange_toInt imm)) (by simp [Instr.toRecord, instrOfRecord])

theorem RecordRoundTrip.nop : RecordRoundTrip.Statement .nop :=
  recordRoundTrip_of rfl rfl rfl rfl

/-- Every instruction is well formed: a closed sum type cannot represent one that is not (R75). -/
theorem instr_wellFormed (i : Instr) : i.WellFormed := by
  cases i with
  | add rd rs rt => exact (RecordRoundTrip.add rd rs rt).1
  | sub rd rs rt => exact (RecordRoundTrip.sub rd rs rt).1
  | and rd rs rt => exact (RecordRoundTrip.and rd rs rt).1
  | or rd rs rt => exact (RecordRoundTrip.or rd rs rt).1
  | slt rd rs rt => exact (RecordRoundTrip.slt rd rs rt).1
  | addi rt rs imm => exact (RecordRoundTrip.addi rt rs imm).1
  | slti rt rs imm => exact (RecordRoundTrip.slti rt rs imm).1
  | lw rt rs imm => exact (RecordRoundTrip.lw rt rs imm).1
  | sw rt rs imm => exact (RecordRoundTrip.sw rt rs imm).1
  | nop => exact RecordRoundTrip.nop.1

end Sys2Proof.Laws
end

