-- ==== Sys2Proof/Tests/Slice0.lean ====
section
/-! SUPPORT. Tests on fixed values, each expected value taken from the spec (the file or vector is named), and for each statement with
hypotheses a witness that meets them together. -/

namespace Sys2Proof.Tests

open Sys2Proof.Machine Sys2Proof.Statements

/-! ### WellFormed: an ill-formed record for each check (R75; vector X8) -/

/-- `ADD` without `rd`. -/
def addWithoutRd : Record := { opcode := .add, rs := some 1, rt := some 2 }

/-- `ADDI` without `imm`. -/
def addiWithoutImm : Record := { opcode := .addi, rs := some 0, rt := some 1 }

/-- `ADD` with register 32. -/
def addWithRegister32 : Record := { opcode := .add, rd := some 1, rs := some 2, rt := some 32 }

/-- `ADD` with register -1. -/
def addWithRegisterMinus1 : Record := { opcode := .add, rd := some 1, rs := some (-1), rt := some 3 }

/-- `ADDI` with an immediate of 2^15. -/
def addiWithImm32768 : Record := { opcode := .addi, rs := some 0, rt := some 1, imm := some 32768 }

theorem test_wf_missing_field : addWithoutRd.fieldsPresent = false ∧ resolve addWithoutRd = .error .malformedInstruction ∧
    addiWithoutImm.fieldsPresent = false ∧ resolve addiWithoutImm = .error .malformedInstruction := by decide

theorem test_wf_register_range : addWithRegister32.fieldsPresent = true ∧ addWithRegister32.registersInRange = false ∧
    resolve addWithRegister32 = .error .outOfRangeRegister ∧ resolve addWithRegisterMinus1 = .error .outOfRangeRegister := by decide

theorem test_wf_imm_range : addiWithImm32768.fieldsPresent = true ∧ addiWithImm32768.registersInRange = true ∧
    addiWithImm32768.immInRange = false ∧ resolve addiWithImm32768 = .error .malformedInstruction := by decide

/-- A missing field is found before a register out of range; surplus fields of a `NOP` do no harm (R75). -/
theorem test_wf_order_and_surplus :
    resolve { opcode := .add, rs := some 40, rt := some 2 } = .error .malformedInstruction ∧
    resolve { opcode := .nop, rd := some 3, imm := some 40000 } = .ok .nop ∧
    resolve { opcode := .addi, rt := some 31, rs := some 0, imm := some (-32768) } = .ok (.addi 31 0 0x8000#16) := by decide

/-! ### Decoding: words written out bit by bit from R81 to R84, as assembled in 95_test_vectors.md -/

theorem test_decode_add : decode 0b000000_00001_00010_00011_00000_100000#32 = .ok (.add 3 1 2) := by rfl
theorem test_decode_sub : decode 0b000000_00011_00001_00101_00000_100010#32 = .ok (.sub 5 3 1) := by rfl
theorem test_decode_and : decode 0b000000_00001_00010_00011_00000_100100#32 = .ok (.and 3 1 2) := by rfl
theorem test_decode_or : decode 0b000000_00001_00010_00011_00000_100101#32 = .ok (.or 3 1 2) := by rfl
theorem test_decode_slt : decode 0b000000_00001_00010_00011_00000_101010#32 = .ok (.slt 3 1 2) := by rfl
theorem test_decode_addi : decode 0b001000_00001_00010_1111111111111111#32 = .ok (.addi 2 1 (-1#16)) := by rfl
theorem test_decode_slti : decode 0b001010_00001_00011_0000000000001010#32 = .ok (.slti 3 1 10#16) := by rfl
theorem test_decode_lw : decode 0b100011_00001_00100_1111111111111100#32 = .ok (.lw 4 1 (-4#16)) := by rfl
theorem test_decode_sw : decode 0b101011_00001_00011_1111111111111000#32 = .ok (.sw 3 1 (-8#16)) := by rfl
theorem test_decode_nop : decode 0b000000_00000_00000_00000_00000_000000#32 = .ok .nop := by rfl

/-- One word of each class of R89. -/
theorem test_decode_illegal :
    decode 0x10000000#32 = .error (.unknownOpcode 0x04#6) ∧ decode 0x00221860#32 = .error (.nonzeroShamt 1#5) ∧
    decode 0x00221821#32 = .error (.unknownFunct 0x21#6) ∧ decode 0x00010000#32 = .error .nopWithFields := by decide

/-- The word assembled for each instruction in 95_test_vectors.md. -/
theorem test_encode :
    encode (.sub 5 3 1) = 0x00612822#32 ∧ encode (.and 3 1 2) = 0x00221824#32 ∧ encode (.or 3 1 2) = 0x00221825#32 ∧
    encode (.slt 3 1 2) = 0x0022182A#32 ∧ encode (.slti 3 1 10#16) = 0x2823000A#32 ∧
    encode (.lw 4 1 (-4#16)) = 0x8C24FFFC#32 ∧ encode (.sw 3 1 (-8#16)) = 0xAC23FFF8#32 := by decide

/-! ### One step per instruction: the row of 95_test_vectors.md is named -/

/-- A register file with two words set. -/
def regs2 (i : Reg) (v : Word) (j : Reg) (w : Word) : Regs :=
  writeReg (writeReg State.reset.x i v) j w

/-- The one-instruction program two cycles after its load, over the given registers and memory. -/
def ready (i : Instr) (x : Regs) (m : Mem) : State := { State.reset.loadedAndDecoded i with x := x, dmem := m }

/-- The record Execute leaves. -/
def executed (i : Instr) (x : Regs) : Latch :=
  match exec i (ready i x []) with
  | .next t => t.exMem
  | .fault _ => .bubble
  | .refused _ => .bubble

/-- A state in which the record is in `EX_MEM` and nothing else is in flight. -/
def inMemory (r : InFlight) (m : Mem) : State := { State.reset with exMem := .inFlight r, dmem := m }

/-- A state in which the record is in `MEM_WB` and nothing else is in flight. -/
def inWriteBack (r : InFlight) : State := { State.reset with memWb := .inFlight r }

/-- A2, A3. -/
theorem test_add_wraps :
    executed (.add 3 1 2) (regs2 1 0x7FFFFFFF#32 2 1#32) = .inFlight { instr := .add 3 1 2, result := some 0x80000000#32 } ∧
    executed (.add 3 1 2) (regs2 1 0xFFFFFFFF#32 2 1#32) = .inFlight { instr := .add 3 1 2, result := some 0#32 } := by decide

/-- A6, A7. -/
theorem test_sub_first_minus_second :
    executed (.sub 5 3 1) (regs2 3 0x2A#32 1 0x14#32) = .inFlight { instr := .sub 5 3 1, result := some 0x16#32 } ∧
    executed (.sub 3 1 2) (regs2 1 0#32 2 1#32) = .inFlight { instr := .sub 3 1 2, result := some 0xFFFFFFFF#32 } := by decide

/-- A10, A11. -/
theorem test_and_bits :
    executed (.and 3 1 2) (regs2 1 0xFF0F#32 2 0xFF0#32) = .inFlight { instr := .and 3 1 2, result := some 0xF00#32 } ∧
    executed (.and 3 1 2) (regs2 1 0xFFFFFFFF#32 2 0x80000001#32) =
      .inFlight { instr := .and 3 1 2, result := some 0x80000001#32 } := by decide

/-- A13, A15. -/
theorem test_or_bits :
    executed (.or 3 1 2) (regs2 1 0xFF0F#32 2 0xFF0#32) = .inFlight { instr := .or 3 1 2, result := some 0xFFFF#32 } ∧
    executed (.or 3 1 2) (regs2 1 0x80000000#32 2 1#32) =
      .inFlight { instr := .or 3 1 2, result := some 0x80000001#32 } := by decide

/-- A16, A17. -/
theorem test_slt_is_signed :
    executed (.slt 3 1 2) (regs2 1 0xFFFFFFFF#32 2 1#32) = .inFlight { instr := .slt 3 1 2, result := some 1#32 } ∧
    executed (.slt 3 1 2) (regs2 1 1#32 2 0xFFFFFFFF#32) = .inFlight { instr := .slt 3 1 2, result := some 0#32 } := by decide

/-- A18, A20. -/
theorem test_slt_is_exact :
    executed (.slt 3 1 2) (regs2 1 0x80000000#32 2 0x7FFFFFFF#32) = .inFlight { instr := .slt 3 1 2, result := some 1#32 } ∧
    executed (.slt 3 1 2) (regs2 1 7#32 2 7#32) = .inFlight { instr := .slt 3 1 2, result := some 0#32 } := by decide

/-- B2, B6. -/
theorem test_addi_sign_extends :
    executed (.addi 1 0 0x8000#16) State.reset.x = .inFlight { instr := .addi 1 0 0x8000#16, result := some 0xFFFF8000#32 } ∧
    executed (.addi 2 1 1#16) (regs2 1 0x7FFFFFFF#32 0 0#32) =
      .inFlight { instr := .addi 2 1 1#16, result := some 0x80000000#32 } := by decide

/-- B12, B13. -/
theorem test_slti_sign_extends :
    executed (.slti 2 1 0xFFFF#16) State.reset.x = .inFlight { instr := .slti 2 1 0xFFFF#16, result := some 0#32 } ∧
    executed (.slti 2 1 0x8000#16) (regs2 1 0x80000000#32 0 0#32) =
      .inFlight { instr := .slti 2 1 0x8000#16, result := some 1#32 } := by decide

/-- C4: the address wraps. -/
theorem test_lw_address_wraps :
    executed (.lw 4 1 8#16) (regs2 1 0xFFFFFFFC#32 0 0#32) = .inFlight { instr := .lw 4 1 8#16, address := some 4#32 } := by decide

/-- C2: the last word; X1, X2, X5: alignment is checked before the range. -/
theorem test_lw_in_memory :
    (∃ t, step (inMemory { instr := .lw 4 0 4092#16, address := some 4092#32 } [(1023, 0xCAFEF00D#32)]) = .next t ∧
      t.memWb = .inFlight { instr := .lw 4 0 4092#16, address := some 4092#32, result := some 0xCAFEF00D#32 }) ∧
    step (inMemory { instr := .lw 1 0 2#16, address := some 2#32 } []) = .fault (.unalignedMemoryAccess 2#32) ∧
    step (inMemory { instr := .lw 1 0 4096#16, address := some 4096#32 } []) = .fault (.outOfRangeAddress 4096#32) ∧
    step (inMemory { instr := .lw 1 0 4097#16, address := some 4097#32 } []) = .fault (.unalignedMemoryAccess 4097#32) :=
  ⟨⟨_, rfl, rfl⟩, rfl, rfl, rfl⟩

/-- C12: the data register is the base; C10: a negative displacement. -/
theorem test_sw_address_and_word :
    executed (.sw 1 1 0#16) (regs2 1 0xC#32 0 0#32) =
      .inFlight { instr := .sw 1 1 0#16, address := some 0xC#32, storeValue := some 0xC#32 } ∧
    executed (.sw 3 1 0xFFF8#16) (regs2 1 0x10#32 3 0xAB#32) =
      .inFlight { instr := .sw 3 1 0xFFF8#16, address := some 8#32, storeValue := some 0xAB#32 } := by decide

/-- C9: the last word; C11: storing 0 over a word leaves it unlisted. -/
theorem test_sw_in_memory :
    (∃ t, step (inMemory { instr := .sw 3 0 4092#16, address := some 4092#32, storeValue := some 0xFFFFFFFF#32 } []) = .next t ∧
      t.dmem = [(1023, 0xFFFFFFFF#32)]) ∧
    (∃ t, step (inMemory { instr := .sw 0 0 4#16, address := some 4#32, storeValue := some 0#32 } [(1, 0x9999#32)]) = .next t ∧
      t.dmem = []) :=
  ⟨⟨_, rfl, rfl⟩, _, rfl, rfl⟩

/-- D1: a `NOP` carries no field, writes nothing and is not counted; A5: an `ADD` to `$0` writes nothing and is counted. -/
theorem test_nop_and_register_zero :
    executed .nop State.reset.x = .inFlight { instr := .nop } ∧
    (∃ t, step (inWriteBack { instr := .nop }) = .next t ∧ t.retired = 0) ∧
    (∃ t, step (inWriteBack { instr := .add 0 1 2, result := some 0xF#32 }) = .next t ∧ t.retired = 1 ∧ t.x = State.reset.x) :=
  ⟨by decide, ⟨_, rfl, rfl⟩, _, rfl, rfl, rfl⟩

/-! ### States for the witnesses -/

/-- The invariant as one check. -/
def invCheck (s : State) : Bool :=
  decide (s.x[0] = 0#32) && Mem.wf s.dmem && decide (s.pc ≤ s.prog.length) && decide (s.prog.length ≤ Config.progMax) &&
    s.ifId.holds InFlight.shapeFetched && s.idEx.holds InFlight.shapeFetched && s.exMem.holds InFlight.shapeExecuted &&
    s.memWb.holds InFlight.shapeAccessed && s.interlocked && decide (s.fault = none ∨ s.fault = pendingFault s)

theorem inv_of_check {s : State} (h : invCheck s = true) : s.Inv := by
  simp only [invCheck, Bool.and_eq_true, decide_eq_true_eq] at h
  obtain ⟨⟨⟨⟨⟨⟨⟨⟨⟨h1, h2⟩, h3⟩, h4⟩, h5⟩, h6⟩, h7⟩, h8⟩, h9⟩, h10⟩ := h
  exact ⟨h1, h2, h3, h4, h5, h6, h7, h8, h9, h10⟩

/-- A full pipeline about to execute `i`: an `ADDI` to register 1 in `EX_MEM`, a loaded word for register 2 in `MEM_WB`. -/
def busy (i : Instr) : State :=
  { State.reset with
    prog := [.lw 2 0 0#16, .addi 1 0 5#16, i, .nop], pc := 4, dmem := [(0, 7#32)]
    memWb := .inFlight { instr := .lw 2 0 0#16, address := some 0#32, result := some 7#32 }
    exMem := .inFlight { instr := .addi 1 0 5#16, result := some 5#32 }
    idEx := .inFlight (.fetched i), ifId := .inFlight (.fetched .nop) }

/-- Vector E1 after cycle 2: the `LW` in Execute, its consumer in Decode. -/
def loadUseStall : State :=
  { State.reset with
    prog := [.lw 4 0 0#16, .add 5 4 4], pc := 2, dmem := [(0, 7#32)]
    idEx := .inFlight (.fetched (.lw 4 0 0#16)), ifId := .inFlight (.fetched (.add 5 4 4)) }

/-- A state about to raise the error of the `LW` in `EX_MEM`. -/
def faulting (a : Word) : State := inMemory { instr := .lw 1 0 2#16, address := some a } []

/-- A state with `FAULT` set. -/
def faulted : State := { faulting 2#32 with fault := some (.unalignedMemoryAccess 2#32) }

/-- Vector E3's program, loaded. -/
def fiveInstructions : State :=
  State.reset.loaded [.addi 1 0 5#16, .addi 2 0 10#16, .add 3 1 2, .sw 3 0 0#16, .lw 4 0 0#16]

/-! ### Witnesses: encoding and load -/

theorem witness_EncodeOfDecodeIsTheWord : decode 0x00221820#32 = .ok (.add 3 1 2) := rfl

theorem witness_DecoderFollowsTheOpcodeMap : ∃ a ∈ opcodeMap, ∃ b ∈ opcodeMap, a.Matches 0x2822FFFF#32 ∧ b.Matches 0x2822FFFF#32 := by
  decide

theorem witness_IllegalWordsAreRefusedByLoad :
    (0x10000000#32 : Word).toNat / 2 ^ 26 ∉ [0x00, 0x08, 0x0A, 0x23, 0x2B] ∧
    ((0x00221821#32 : Word).toNat / 2 ^ 26 = 0 ∧ (0x00221821#32 : Word).toNat % 2 ^ 6 ∉ [0x00, 0x20, 0x22, 0x24, 0x25, 0x2A]) ∧
    ((0x00221860#32 : Word).toNat / 2 ^ 26 = 0 ∧ (0x00221860#32 : Word).toNat / 2 ^ 6 % 2 ^ 5 ≠ 0) ∧
    ((0x00010000#32 : Word).toNat / 2 ^ 26 = 0 ∧ (0x00010000#32 : Word).toNat % 2 ^ 11 = 0 ∧ (0x00010000#32 : Word) ≠ 0#32) ∧
    ((∀ v ∈ [(0x00221820#32 : Word)], ∃ i, decode v = .ok i) ∧ [(0x00221820#32 : Word)].length < Config.progMax ∧
      decode 0x00010000#32 = .error .nopWithFields) :=
  ⟨by decide, by decide, by decide, by decide, fun v hv => ⟨.add 3 1 2, by rw [List.mem_singleton.1 hv]; rfl⟩, by decide, rfl⟩

theorem witness_RecordResolvesOrNamesItsFirstDefect :
    (Record.WellFormed (Instr.toRecord (.lw 31 0 0x8000#16)) ∧ resolve (Instr.toRecord (.lw 31 0 0x8000#16)) = .ok (.lw 31 0 0x8000#16)) ∧
    addWithoutRd.fieldsPresent = false ∧
    (addWithRegister32.fieldsPresent = true ∧ addWithRegister32.registersInRange = false) ∧
    (addiWithImm32768.fieldsPresent = true ∧ addiWithImm32768.registersInRange = true ∧ addiWithImm32768.immInRange = false) :=
  ⟨⟨⟨rfl, rfl, rfl⟩, rfl⟩, rfl, ⟨rfl, rfl⟩, rfl, rfl, rfl⟩

theorem witness_LoadReplacesTheProgramAndNothingElseDoes :
    resolveRecords [Instr.toRecord (.add 3 1 2)] = .ok [.add 3 1 2] ∧
    ((∀ rs, HostOp.step ≠ .load rs) ∧ ∀ ws, HostOp.step ≠ .loadWords ws) :=
  ⟨rfl, by simp, by simp⟩

theorem witness_LoadRefusalNamesTheLowestSlot :
    ((∀ q ∈ [Instr.toRecord .nop], q.WellFormed) ∧ [Instr.toRecord .nop].length < Config.progMax ∧
      resolve addWithoutRd = .error .malformedInstruction ∧ resolve addWithRegister32 = .error .outOfRangeRegister) ∧
    ((∀ q ∈ List.replicate (Config.progMax + 1) (Instr.toRecord .nop), q.WellFormed) ∧
      Config.progMax < (List.replicate (Config.progMax + 1) (Instr.toRecord .nop)).length) ∧
    ((∀ q ∈ List.replicate Config.progMax (Instr.toRecord .nop), q.WellFormed) ∧
      (List.replicate Config.progMax (Instr.toRecord .nop)).length ≤ Config.progMax) :=
  ⟨⟨fun q hq => by rw [List.mem_singleton.1 hq]; exact ⟨rfl, rfl, rfl⟩, by decide, rfl, rfl⟩,
   ⟨fun q hq => by rw [List.eq_of_mem_replicate hq]; exact ⟨rfl, rfl, rfl⟩, by rw [List.length_replicate]; exact Nat.lt_succ_self _⟩,
   ⟨fun q hq => by rw [List.eq_of_mem_replicate hq]; exact ⟨rfl, rfl, rfl⟩, by rw [List.length_replicate]⟩⟩

theorem witness_LoadingWordsIsLoadingTheirRecords :
    [0x00221820#32, 0#32].map decode = [Instr.add 3 1 2, .nop].map Except.ok ∧ [Instr.add 3 1 2, .nop].length ≤ Config.progMax :=
  ⟨rfl, by decide⟩

/-! ### Witnesses: the invariant and the pipeline -/

theorem witness_StepKeepsTheInvariant : (busy (.add 3 1 2)).Inv ∧ ∃ t, step (busy (.add 3 1 2)) = .next t :=
  ⟨inv_of_check (by decide), _, rfl⟩

theorem witness_HostCallsKeepTheInvariant : faulted.Inv ∧ (faulting 4096#32).Inv :=
  ⟨inv_of_check (by decide), inv_of_check (by decide)⟩

theorem witness_RegisterZeroStaysZero :
    (inWriteBack { instr := .lw 0 0 0#16, address := some 0#32, result := some 7#32 }).x[0] = 0#32 ∧
    ∃ t, step (inWriteBack { instr := .lw 0 0 0#16, address := some 0#32, result := some 7#32 }) = .next t :=
  ⟨by decide, _, rfl⟩

theorem witness_ResetLoadRunIsReproducible : resolveRecords (recordsOf fiveInstructions.prog) = .ok fiveInstructions.prog := rfl

theorem witness_StallInsertsOneBubbleAndHoldsFetch :
    hazard loadUseStall.ifId loadUseStall.idEx = .stall ∧ ∃ t, step loadUseStall = .next t := ⟨by decide, _, rfl⟩

/-- Both clauses, at the last slot and past it. -/
theorem witness_ProceedPassesDecodeAndFetches :
    (hazard fiveInstructions.ifId fiveInstructions.idEx = .proceed ∧ (∃ t, step { fiveInstructions with pc := 4 } = .next t) ∧
      fiveInstructions.prog[4]? = some (.lw 4 0 0#16)) ∧
    (∃ t, step { fiveInstructions with pc := 5 } = .next t) ∧ fiveInstructions.prog.length ≤ 5 :=
  ⟨⟨by decide, ⟨_, rfl⟩, rfl⟩, ⟨_, rfl⟩, by decide⟩

theorem witness_StallLastsOneCycle :
    stallFlag loadUseStall = true ∧ ∃ t u, step loadUseStall = .next t ∧ step t = .next u := ⟨by decide, _, _, rfl, rfl⟩

theorem witness_LoadedWordIsForwardedFromMemWb :
    stallFlag loadUseStall = true ∧ loadUseStall.idEx = .inFlight (.fetched (.lw 4 0 0#16)) ∧
    loadDest (InFlight.fetched (.lw 4 0 0#16)).instr = some 4 ∧ ∃ t u, step loadUseStall = .next t ∧ step t = .next u :=
  ⟨by decide, rfl, rfl, _, _, rfl, rfl⟩

/-- One witness for each clause: register 0, a producer in `EX_MEM` with an older one in `MEM_WB` (F1), one in `MEM_WB` alone with an
`SW` in `EX_MEM` (F7), none. -/
theorem witness_ForwardingTakesTheYoungestProducer :
    forward State.reset.x (.inFlight { instr := .addi 0 0 5#16, result := some 5#32 }) .bubble 0 = .next 0#32 ∧
    forward State.reset.x (.inFlight { instr := .addi 1 0 2#16, result := some 2#32 })
      (.inFlight { instr := .addi 1 0 1#16, result := some 1#32 }) 1 = .next 2#32 ∧
    forward State.reset.x (.inFlight { instr := .sw 1 0 0#16, address := some 0#32, storeValue := some 9#32 })
      (.inFlight { instr := .addi 1 0 1#16, result := some 1#32 }) 1 = .next 1#32 ∧
    forward (regs2 1 4#32 2 5#32) .bubble (.inFlight { instr := .addi 2 0 1#16, result := some 1#32 }) 1 = .next 4#32 :=
  ⟨rfl, rfl, rfl, rfl⟩

theorem witness_ForwardingCannotSeeWriteBackTiming : ∃ x' n', writeBackStage (busy (.add 3 1 2)) = .next (x', n') := ⟨_, _, rfl⟩

theorem witness_UnfaultedStepIsNeverRefused :
    ((busy (.add 3 1 2)).Inv ∧ (busy (.add 3 1 2)).fault = none ∧ pendingFault (busy (.add 3 1 2)) = none) ∧
    ((faulting 2#32).Inv ∧ (faulting 2#32).fault = none ∧ pendingFault (faulting 2#32) = some (.unalignedMemoryAccess 2#32)) :=
  ⟨⟨inv_of_check (by decide), rfl, by decide⟩, inv_of_check (by decide), rfl, by decide⟩

/-! ### Witnesses: the step and the instructions -/

theorem witness_StepRunsTheDecodedInstruction :
    (busy (.add 3 1 2)).idEx = .inFlight (.fetched (.add 3 1 2)) ∧ fiveInstructions.idEx = .bubble ∧
    (0x00221820 < 2 ^ 32 ∧ decode (BitVec.ofNat 32 0x00221820) = .ok (.add 3 1 2)) ∧
    fiveInstructions.prog[fiveInstructions.pc]? = some (.addi 1 0 5#16) ∧ stallFlag fiveInstructions = false ∧
    ∃ t u, step fiveInstructions = .next t ∧ stallFlag t = false ∧ step t = .next u :=
  ⟨rfl, rfl, ⟨by decide, rfl⟩, rfl, by decide, _, _, rfl, by decide, rfl⟩

/-- Execute with operands from `EX_MEM`, `MEM_WB` and the register file, one instruction of each opcode. -/
theorem witness_Executes :
    Executes (busy (.add 3 1 2)) (.add 3 1 2) ∧ Executes (busy (.sub 0 1 2)) (.sub 0 1 2) ∧
    Executes (busy (.and 31 1 0)) (.and 31 1 0) ∧ Executes (busy (.or 3 2 2)) (.or 3 2 2) ∧ Executes (busy (.slt 1 1 3)) (.slt 1 1 3) ∧
    Executes (busy (.addi 3 1 (-1#16))) (.addi 3 1 (-1#16)) ∧ Executes (busy (.slti 2 2 7#16)) (.slti 2 2 7#16) ∧
    Executes (busy (.lw 3 1 3#16)) (.lw 3 1 3#16) ∧ Executes (busy (.sw 2 1 (-1#16))) (.sw 2 1 (-1#16)) ∧
    Executes (busy .nop) .nop := by
  refine ⟨?_, ?_, ?_, ?_, ?_, ?_, ?_, ?_, ?_, ?_⟩ <;>
    exact ⟨⟨inv_of_check (by decide), rfl, by decide⟩, rfl⟩

theorem witness_ExecutePassesNopAndBubble : fiveInstructions.Normal ∧ fiveInstructions.idEx = .bubble :=
  ⟨⟨inv_of_check (by decide), rfl, by decide⟩, rfl⟩

/-- The hypothesis of the statements `AddWritesTheWrappedSum` to `NopChangesNothingAndIsNotCounted`, for every opcode. -/
theorem witness_Alone :
    (ready (.add 0 1 2) (regs2 1 5#32 2 7#32) []).Alone (.add 0 1 2) ∧ (ready (.sub 3 1 2) (regs2 1 5#32 2 7#32) []).Alone (.sub 3 1 2) ∧
    (ready (.and 3 3 3) (regs2 3 5#32 2 7#32) []).Alone (.and 3 3 3) ∧ (ready (.or 3 1 0) (regs2 1 5#32 2 7#32) []).Alone (.or 3 1 0) ∧
    (ready (.slt 3 1 2) (regs2 1 5#32 2 7#32) []).Alone (.slt 3 1 2) ∧ (ready (.addi 1 0 5#16) State.reset.x []).Alone (.addi 1 0 5#16) ∧
    (ready (.slti 1 0 5#16) State.reset.x []).Alone (.slti 1 0 5#16) ∧ (ready .nop State.reset.x []).Alone .nop := by decide

/-- `LW` at each boundary of its clauses: the last word, one byte off, one word past the end, a negative address. -/
theorem witness_LwLoadsTheWordOrFaults :
    let s := ready (.lw 4 1 (-4#16)) (regs2 1 4096#32 0 0#32) [(1023, 7#32)]
    let s' := ready (.lw 4 1 (-4#16)) (regs2 1 4097#32 0 0#32) []
    let s'' := ready (.lw 0 1 (-4#16)) (regs2 1 4100#32 0 0#32) []
    let s''' := ready (.lw 4 0 (-4#16)) State.reset.x []
    (s.Alone (.lw 4 1 (-4#16)) ∧ 4092#32 = readReg s.x 1 + (-4#16 : Imm).signExtend 32 ∧ (4092#32 : Word).toNat % 4 = 0) ∧
    (s'.Alone (.lw 4 1 (-4#16)) ∧ 4093#32 = readReg s'.x 1 + (-4#16 : Imm).signExtend 32 ∧ (4093#32 : Word).toNat % 4 ≠ 0) ∧
    (s''.Alone (.lw 0 1 (-4#16)) ∧ 4096#32 = readReg s''.x 1 + (-4#16 : Imm).signExtend 32 ∧ 4096 ≤ (4096#32 : Word).toNat) ∧
    (s'''.Alone (.lw 4 0 (-4#16)) ∧ 0xFFFFFFFC#32 = readReg s'''.x 0 + (-4#16 : Imm).signExtend 32 ∧
      4096 ≤ (0xFFFFFFFC#32 : Word).toNat) := by decide

/-- `SW` at each boundary of its clauses. -/
theorem witness_SwStoresTheWordOrFaults :
    let s := ready (.sw 2 1 0#16) (regs2 1 4092#32 2 9#32) []
    let s' := ready (.sw 2 1 1#16) (regs2 1 4092#32 2 9#32) []
    let s'' := ready (.sw 2 1 4#16) (regs2 1 4092#32 2 9#32) []
    (s.Alone (.sw 2 1 0#16) ∧ 4092#32 = readReg s.x 1 + (0#16 : Imm).signExtend 32 ∧ (4092#32 : Word).toNat < 4096 ∧ Mem.wf s.dmem = true) ∧
    (s'.Alone (.sw 2 1 1#16) ∧ 4093#32 = readReg s'.x 1 + (1#16 : Imm).signExtend 32 ∧ (4093#32 : Word).toNat % 4 ≠ 0) ∧
    (s''.Alone (.sw 2 1 4#16) ∧ 4096#32 = readReg s''.x 1 + (4#16 : Imm).signExtend 32 ∧ 4096 ≤ (4096#32 : Word).toNat) := by decide

/-- A cycle that commits a register and passes a store; and a store's own Memory cycle. -/
theorem witness_ExecuteCycleFrame :
    (∃ t, exec (.sw 2 1 (-1#16)) (busy (.sw 2 1 (-1#16))) = .next t) ∧ committedReg (busy (.sw 2 1 (-1#16))) ≠ some 1 ∧
    storeAddress (inMemory { instr := .sw 3 0 4#16, address := some 4#32, storeValue := some 1#32 } []) = some 4#32 ∧
    ∃ t, exec .nop (inMemory { instr := .sw 3 0 4#16, address := some 4#32, storeValue := some 1#32 } []) = .next t :=
  ⟨⟨_, rfl⟩, by decide, rfl, _, rfl⟩

theorem witness_PassageFrame :
    (ready (.sw 2 1 0#16) (regs2 1 4092#32 2 9#32) []).Alone (.sw 2 1 0#16) ∧
    ∃ t u w, Passes (.sw 2 1 0#16) (ready (.sw 2 1 0#16) (regs2 1 4092#32 2 9#32) []) t u w :=
  ⟨by decide, _, _, _, rfl, rfl, rfl⟩

/-! ### Witnesses: Write-Back, Memory, faults -/

/-- Each clause: no record, a record with a destination, one without, a `NOP`. -/
theorem witness_WriteBackCommitsAndCounts :
    (∃ t, step State.reset = .next t) ∧ State.reset.memWb = .bubble ∧
    (∃ t, step (inWriteBack { instr := .add 0 1 2, result := some 0xF#32 }) = .next t) ∧ dest (.add 0 1 2) = some 0 ∧
    (∃ t, step (inWriteBack { instr := .sw 3 0 0#16, address := some 0#32, storeValue := some 0#32 }) = .next t) ∧
    dest (.sw 3 0 0#16) = none ∧ ∃ t, step (inWriteBack { instr := .nop }) = .next t :=
  ⟨⟨_, rfl⟩, rfl, ⟨_, rfl⟩, rfl, ⟨_, rfl⟩, rfl, _, rfl⟩

/-- Each clause: no record, an `LW`, an `SW`, another. -/
theorem witness_MemoryReadsForLwAndWritesForSw :
    (∃ t, step State.reset = .next t) ∧ State.reset.exMem = .bubble ∧
    (∃ t, step (inMemory { instr := .lw 4 0 4092#16, address := some 4092#32 } []) = .next t) ∧
    (∃ t, step (inMemory { instr := .sw 3 0 4092#16, address := some 4092#32, storeValue := some 1#32 } []) = .next t) ∧
    ∃ t, step (inMemory { instr := .nop } []) = .next t :=
  ⟨⟨_, rfl⟩, rfl, ⟨_, rfl⟩, ⟨_, rfl⟩, _, rfl⟩

/-- An `SW` in Memory and an `LW` of the same word in Execute, so that the `LW` is in Memory one cycle later (vector E6). -/
def storeThenLoad : State :=
  { inMemory { instr := .sw 1 0 4092#16, address := some 4092#32, storeValue := some 0xFFFFFF85#32 } [] with
    prog := [.sw 1 0 4092#16, .lw 2 0 4092#16], pc := 2, idEx := .inFlight (.fetched (.lw 2 0 4092#16)) }

theorem witness_StoreThenLoadYieldsTheWord :
    Mem.wf storeThenLoad.dmem = true ∧ ∃ t u w, step storeThenLoad = .next t ∧ RunsTo 0 t u ∧ NoStoreTo 4092#32 0 t ∧
      u.exMem = .inFlight { instr := .lw 2 0 4092#16, address := some 4092#32 } ∧ step u = .next w :=
  ⟨by decide, _, _, _, rfl, rfl, fun _ _ _ h => absurd h (Nat.not_lt_zero _), rfl, rfl⟩

theorem witness_AddressChecksRaiseTheFault :
    ((faulting 4095#32).Inv ∧ (faulting 4095#32).fault = none ∧ memAccess (.lw 1 0 2#16) ≠ .pass ∧ (4095#32 : Word).toNat % 4 ≠ 0) ∧
    ((faulting 4096#32).Inv ∧ (4096#32 : Word).toNat % 4 = 0 ∧ 4096 ≤ (4096#32 : Word).toNat) :=
  ⟨⟨inv_of_check (by decide), rfl, by decide, by decide⟩, inv_of_check (by decide), by decide, by decide⟩

theorem witness_OnlyLoadsAndStoresFault :
    step (faulting 1#32) = .fault (.unalignedMemoryAccess 1#32) ∧ step (faulting 4096#32) = .fault (.outOfRangeAddress 4096#32) :=
  ⟨rfl, rfl⟩

theorem witness_FaultPublishesNothingButItself :
    step { busy .nop with exMem := .inFlight { instr := .sw 2 0 1#16, address := some 1#32, storeValue := some 0#32 } } =
      .fault (.unalignedMemoryAccess 1#32) := rfl

theorem witness_FaultHoldsUntilResetOrLoad :
    faulted.fault = some (.unalignedMemoryAccess 2#32) ∧ (0 : Int) < 1 ∧ resolveRecords [] = .ok [] ∧
    (hostCallWith false .reset faulted).1.fault ≠ some (.unalignedMemoryAccess 2#32) := ⟨rfl, by decide, rfl, by decide⟩

/-! ### Witnesses: runs, pokes, ports -/

theorem witness_RunIsRepeatedStep :
    ((0 : Int) ≤ 0 ∧ fiveInstructions.fault = none) ∧ (∃ r t, RunsTo 2 fiveInstructions r ∧ step r = .next t) ∧
    (0 < 1 ∧ RunsTo 0 (faulting 2#32) (faulting 2#32) ∧ step (faulting 2#32) = .fault (.unalignedMemoryAccess 2#32)) ∧
    ∃ t u, RunsTo 1 fiveInstructions t ∧ RunsTo 1 t u :=
  ⟨⟨by decide, rfl⟩, ⟨_, _, rfl, rfl⟩, ⟨by decide, rfl, rfl⟩, _, _, rfl, rfl⟩

theorem witness_DrainedStateIsAFixedPoint :
    ({ fiveInstructions with pc := 5 } : State).Drained ∧ ({ fiveInstructions with pc := 5 } : State).fault = none ∧
    ∃ t, step fiveInstructions = .next t ∧ stallFlag fiveInstructions = false ∧ fiveInstructions.ifId = .bubble ∧
      fiveInstructions.idEx = .bubble ∧ fiveInstructions.exMem = .bubble :=
  ⟨by decide, rfl, _, rfl, by decide, rfl, rfl, rfl⟩

/-- The bounds of both indices, on either side. -/
theorem witness_PokeSetsOneWord :
    State.reset.fault = none ∧ (1023 < 1024 ∧ Mem.wf State.reset.dmem = true) ∧
    hostCall (.pokeReg 32 1#32) State.reset = (State.reset, .badArgument) ∧
    hostCall (.pokeReg (-1) 1#32) State.reset = (State.reset, .badArgument) ∧
    hostCall (.pokeMem 1024 1#32) State.reset = (State.reset, .badArgument) ∧
    (hostCall (.pokeMem 1023 1#32) State.reset).1.dmem = [(1023, 1#32)] ∧
    (hostCall (.pokeReg 31 1#32) State.reset).1.x[31] = 1#32 ∧ (hostCall (.pokeReg 0 1#32) State.reset).1 = State.reset :=
  ⟨rfl, ⟨by decide, rfl⟩, rfl, rfl, rfl, rfl, by decide, rfl⟩

/-- No input asserted. -/
def quiet : PortIn := {}

/-- A cycle, in the program and past its end; a frozen one; a poke of each port; a load, with a poke and with a frozen `step_en`. -/
theorem witness_PortEdgeIsAHostOperation :
    let last := { fiveInstructions with pc := 5 }
    let cycle : PortIn := { stepEn := true, imemLen := 5#32, imemData := 0x20010005#32 }
    let load : PortIn := { progLoad := true, instrStore := [0x00221820#32] }
    (cycle.rst = false ∧ cycle.progLoad = false ∧ cycle.stepEn = true ∧ cycle.imemLen.toNat = fiveInstructions.prog.length ∧
      fiveInstructions.prog[fiveInstructions.pc]? = some (.addi 1 0 5#16) ∧ cycle.imemData = encode (.addi 1 0 5#16) ∧
      last.prog[last.pc]? = none ∧ faulted.fault = some (.unalignedMemoryAccess 2#32)) ∧
    (quiet.rst = false ∧ quiet.progLoad = false ∧ quiet.stepEn = false ∧ quiet.pokeReg = none ∧ quiet.pokeMem = none) ∧
    (load.rst = false ∧ load.progLoad = true ∧ resolveWords load.instrStore = .ok [.add 3 1 2] ∧ load.stepEn = false ∧
      ∃ t, portEdge { load with progLoad := false, pokeReg := some (31, 1#32), pokeMem := some (1023, 1#32) } fiveInstructions = some t) ∧
    portEdge cycle faulted = some faulted ∧
    portEdge { load with stepEn := true } faulted = some (faulted.loaded [.add 3 1 2]) :=
  ⟨by decide, by decide, ⟨rfl, rfl, rfl, rfl, _, rfl⟩, rfl, rfl⟩

/-! ### Witnesses: replies and outputs -/

theorem witness_StepRepliesTheNewSnapshot :
    (∃ t, step loadUseStall = .next t) ∧ step (faulting 2#32) = .fault (.unalignedMemoryAccess 2#32) ∧
    faulted.fault = some (.unalignedMemoryAccess 2#32) := ⟨⟨_, rfl⟩, rfl, rfl⟩

/-- Vector E1, cycle 3: the snapshot says that the cycle stalled, the port that the next one will not. -/
theorem test_stall_flag_is_of_the_cycle_made :
    ∃ t, hostCall .step loadUseStall = (t, .stepped (t.snapshot true)) ∧ (portOut t).stall = false := ⟨_, rfl, rfl⟩

theorem witness_PortOutputsShowTheState :
    fiveInstructions.Inv ∧ fiveInstructions.fault = none ∧ faulted.fault = some (.unalignedMemoryAccess 2#32) ∧
    ({ faulting 4096#32 with fault := some (.outOfRangeAddress 4096#32) } : State).fault = some (.outOfRangeAddress 4096#32) ∧
    step State.reset = .next State.reset := ⟨inv_of_check (by decide), rfl, rfl, rfl, rfl⟩

theorem witness_FaultIsAnsweredBeforeABadArgument :
    faulted.fault = some (.unalignedMemoryAccess 2#32) ∧
    hostCall (.run 0) faulted = (faulted, .refused (.faulted (.unalignedMemoryAccess 2#32))) := ⟨rfl, rfl⟩

/-! ### Witnesses: headlines -/

/-- The sequential run of vector E3's program ends with the values DOC00 §8 gives. -/
theorem witness_PipelineComputesTheSequentialResult :
    fiveInstructions.Loaded ∧ fiveInstructions.prog.length + 4 + stallCount fiveInstructions.prog ≤ 9 ∧
    ∃ A, seqRun fiveInstructions.prog fiveInstructions.arch = .ok A ∧ A.dmem = [(0, 15#32)] ∧ readReg A.x 4 = 15#32 :=
  ⟨by decide, by decide, _, rfl, rfl, rfl⟩

/-- A load-use pair whose second load faults at slot 1 (after X6). -/
def faultingProgram : State := State.reset.loaded [.lw 1 0 0#16, .lw 2 1 2#16, .addi 3 0 1#16]

theorem witness_PipelineFaultsWhereTheSequentialRunDoes :
    faultingProgram.Loaded ∧ seqRun faultingProgram.prog faultingProgram.arch = .error (1, .unalignedMemoryAccess 2#32) :=
  ⟨by decide, rfl⟩

/-- The stalled consumer of vector E1 at slot 1: it is in `IF_ID` after cycles 2 and 3, counted after cycle 7. -/
theorem witness_OccupancyFollowsTheStallCount :
    let s := State.reset.loaded [.lw 4 0 0#16, .add 5 4 4]
    s.Loaded ∧ s.prog[1]? = some (.add 5 4 4) ∧ 1 + 1 + stallsBefore s.prog 1 = 2 ∧ 1 + 1 + stallsUpTo s.prog 1 = 3 ∧
    (∃ t, RunsTo 2 s t) ∧ (∃ t, RunsTo 3 s t) ∧ (∃ t, RunsTo 4 s t) ∧ (∃ t, RunsTo 5 s t) ∧ (∃ t, RunsTo 6 s t) ∧ ∃ t, RunsTo 7 s t :=
  ⟨by decide, rfl, by decide, by decide, ⟨_, rfl⟩, ⟨_, rfl⟩, ⟨_, rfl⟩, ⟨_, rfl⟩, ⟨_, rfl⟩, _, rfl⟩

/-- Vector E1: one stall, drained after `2 + 4 + 1` cycles; and the empty program. -/
theorem witness_DrainTimeCountsTheStalls :
    let s := State.reset.loaded [.lw 4 0 0#16, .add 5 4 4]
    (s.Loaded ∧ s.prog ≠ [] ∧ s.prog.length + 4 + stallCount s.prog = 7 ∧ ∃ t, RunsTo 7 s t) ∧
    State.reset.Loaded ∧ State.reset.prog = [] :=
  ⟨⟨by decide, by decide, by decide, _, rfl⟩, by decide, rfl⟩

/-! ### Placing a word -/

/-- The next step runs the placed instruction, from reset. -/
theorem test_withFetchWord_runs_it :
    step (State.reset.withFetchWord 32 0x20010005) = exec (.addi 1 0 5#16) (State.reset.withFetchWord 32 0x20010005) ∧
    ∃ t, step (State.reset.withFetchWord 32 0x20010005) = .next t ∧
      t.exMem = .inFlight { instr := .addi 1 0 5#16, result := some 5#32 } :=
  ⟨rfl, _, rfl, rfl⟩

end Sys2Proof.Tests
end

section
/-! What each stage step keeps and leaves unchanged, and a step as one cycle with its Execute stage written as a function: the layer the
proofs about states go through. -/

namespace Sys2Proof.Proofs

open Sys2Proof.Machine Sys2Proof.Laws

/-! ### Write-Back -/

/-- Write-Back leaves the stored word of register 0 alone (R136). -/
theorem writeBackStage_zero_word {s : State} {x' : Regs} {n' : Nat} (h : writeBackStage s = .next (x', n')) :
    x'[0] = s.x[0] := by
  obtain ⟨-, rfl, -⟩ | ⟨q, -, -, ⟨-, rfl⟩ | ⟨-, rfl⟩ | ⟨d, w, -, -, -, rfl⟩⟩ := writeBackStage_next h
  · rfl
  · rfl
  · rfl
  · exact writeReg_zero_word s.x d w

/-- A `Bubble` in `MEM_WB` writes no register (R135). -/
theorem writeBackStage_of_bubble {s : State} {x' : Regs} {n' : Nat} (h : writeBackStage s = .next (x', n'))
    (hb : s.memWb = .bubble) : x' = s.x := by
  simp only [writeBackStage, hb] at h
  cases h
  rfl

/-- The register a cycle commits to is the destination of the record in `MEM_WB`, and is not register 0. -/
theorem committedReg_eq_some {s : State} {r : Reg} :
    committedReg s = some r ↔ ∃ q, s.memWb = .inFlight q ∧ dest q.instr = some r ∧ r ≠ 0 := by
  unfold committedReg
  cases s.memWb with
  | bubble => simp
  | inFlight q =>
    cases hd : dest q.instr with
    | none => simp [hd]
    | some d =>
      by_cases h0 : d = 0
      · simpa [hd, h0] using fun h : 0 = r => h.symm
      · simpa [hd, h0] using fun h : d = r => h ▸ h0

/-- Write-Back leaves every register but the one it commits to as it was (R136). -/
theorem writeBackStage_frame {s : State} {x' : Regs} {n' : Nat} (h : writeBackStage s = .next (x', n')) {r : Reg}
    (hr : committedReg s ≠ some r) : readReg x' r = readReg s.x r := by
  obtain ⟨-, rfl, -⟩ | ⟨q, hq, -, ⟨-, rfl⟩ | ⟨-, rfl⟩ | ⟨d, w, hd, hd0, -, rfl⟩⟩ := writeBackStage_next h
  · rfl
  · rfl
  · rfl
  · have hne : r ≠ d := fun e => hr (committedReg_eq_some.mpr ⟨q, hq, e ▸ hd, e ▸ hd0⟩)
    rw [readReg_writeReg, if_neg fun hc => hne hc.1]

/-- Write-Back counts at most one retirement (R137). -/
theorem writeBackStage_retired {s : State} {x' : Regs} {n' : Nat} (h : writeBackStage s = .next (x', n')) :
    n' = s.retired ∨ n' = s.retired + 1 := by
  obtain ⟨-, -, rfl⟩ | ⟨q, -, rfl, -⟩ := writeBackStage_next h
  · exact .inl rfl
  · unfold retireCount
    split
    · exact .inl rfl
    · exact .inr rfl

/-! ### Memory -/

/-- Memory keeps data memory canonical: it stores only at an address at no fault (R140). -/
theorem memoryStage_keeps_wf {s : State} {m' : Mem} {mw' : Latch} (h : memoryStage s = .next (m', mw'))
    (hm : Mem.wf s.dmem = true) : Mem.wf m' = true := by
  obtain ⟨-, rfl, -⟩ | ⟨p, -, -, rfl, -⟩ | ⟨p, a, -, -, -, -, rfl, -⟩ | ⟨p, a, v, -, -, -, ha, -, rfl, -⟩ := memoryStage_next h
  · exact hm
  · exact hm
  · exact hm
  · exact memWrite_keeps_wf hm ha v

/-- The address a cycle stores to is the one an `SW` in `EX_MEM` holds. -/
theorem storeAddress_eq_some {s : State} {a : Word} :
    storeAddress s = some a ↔ ∃ p, s.exMem = .inFlight p ∧ memAccess p.instr = .store ∧ p.address = some a := by
  unfold storeAddress
  cases s.exMem with
  | bubble => simp
  | inFlight p => cases hm : memAccess p.instr <;> simp [hm]

/-- Memory leaves every word but the one it stores to as it was (R139, R142). -/
theorem memoryStage_frame {s : State} {m' : Mem} {mw' : Latch} (h : memoryStage s = .next (m', mw')) {k : Nat}
    (hk : ∀ a, storeAddress s = some a → wordIndex a ≠ k) : Mem.read m' k = Mem.read s.dmem k := by
  obtain ⟨-, rfl, -⟩ | ⟨p, -, -, rfl, -⟩ | ⟨p, a, -, -, -, -, rfl, -⟩ | ⟨p, a, v, hp, hst, ha, -, -, rfl, -⟩ := memoryStage_next h
  · rfl
  · rfl
  · rfl
  · exact read_write_ne (hk a (storeAddress_eq_some.mpr ⟨p, hp, hst, ha⟩)).symm v

/-- Memory passes a `Bubble` on as a `Bubble` (R139). -/
theorem memoryStage_of_bubble {s : State} {m' : Mem} {mw' : Latch} (h : memoryStage s = .next (m', mw'))
    (hb : s.exMem = .bubble) : mw' = .bubble := by
  simp only [memoryStage, hb] at h
  cases h
  rfl

/-- Memory passes the instruction of a record on (R31, R139). -/
theorem memoryStage_of_inFlight {s : State} {m' : Mem} {mw' : Latch} (h : memoryStage s = .next (m', mw')) {p : InFlight}
    (hp : s.exMem = .inFlight p) : ∃ q, mw' = .inFlight q ∧ q.instr = p.instr := by
  obtain ⟨hb, -⟩ | ⟨p', hp', -, -, rfl⟩ | ⟨p', a, hp', -, -, -, -, rfl⟩ | ⟨p', a, v, hp', -, -, -, -, -, rfl⟩ := memoryStage_next h
  · rw [hb] at hp
    cases hp
  all_goals
    obtain rfl : p' = p := Latch.inFlight.inj (hp'.symm.trans hp)
    exact ⟨_, rfl, rfl⟩

/-! ### Decode and Fetch -/

/-- The hazard detector on two records is the load-use condition (R101). -/
theorem hazard_inFlight (c p : InFlight) :
    hazard (.inFlight c) (.inFlight p) = if loadUse p.instr c.instr then .stall else .proceed := by
  unfold hazard loadUse
  cases h : loadDest p.instr <;> simp [h]

/-- A `Bubble` in Decode never stalls (R101). -/
@[simp] theorem hazard_bubble_left (l : Latch) : hazard .bubble l = .proceed := by
  cases l <;> rfl

/-- Everything Decode can produce: a `Bubble` in a stall, the record in `IF_ID` otherwise (R147, R148). -/
theorem decodeStage_cases (s : State) :
    (hazard s.ifId s.idEx = .stall ∧ decodeStage s = .bubble) ∨
    (hazard s.ifId s.idEx = .proceed ∧ decodeStage s = s.ifId) := by
  unfold decodeStage
  cases hazard s.ifId s.idEx <;> simp

/-- Everything Fetch can do: hold in a stall, fetch slot `PC`, or supply a `Bubble` past the end (R150, R151). -/
theorem fetchStage_cases (s : State) :
    (hazard s.ifId s.idEx = .stall ∧ fetchStage s = (s.ifId, s.pc)) ∨
    (hazard s.ifId s.idEx = .proceed ∧ ∃ i, s.prog[s.pc]? = some i ∧ fetchStage s = (.inFlight (.fetched i), s.pc + 1)) ∨
    (hazard s.ifId s.idEx = .proceed ∧ s.prog[s.pc]? = none ∧ fetchStage s = (.bubble, s.pc)) := by
  unfold fetchStage
  cases hazard s.ifId s.idEx with
  | stall => simp
  | proceed => cases s.prog[s.pc]? <;> simp

/-- Fetch holds `PC` or advances it by one slot (R27). -/
theorem fetchStage_pc (s : State) : (fetchStage s).2 = s.pc ∨ (fetchStage s).2 = s.pc + 1 := by
  obtain ⟨-, h⟩ | ⟨-, i, -, h⟩ | ⟨-, -, h⟩ := fetchStage_cases s <;> simp [h]

/-- Fetch never takes `PC` past the end of the program (R26). -/
theorem fetchStage_pc_le {s : State} (h : s.pc ≤ s.prog.length) : (fetchStage s).2 ≤ s.prog.length := by
  obtain ⟨-, hf⟩ | ⟨-, i, hi, hf⟩ | ⟨-, -, hf⟩ := fetchStage_cases s
  · rwa [hf]
  · have hlt : s.pc < s.prog.length := (List.getElem?_eq_some_iff.mp hi).1
    rw [hf]
    exact hlt
  · rwa [hf]

/-- Past the end, with a `Bubble` in `IF_ID`, Fetch supplies another and holds `PC` (R68, R150). -/
theorem fetchStage_past_end {s : State} (hif : s.ifId = .bubble) (hpc : s.prog.length ≤ s.pc) :
    fetchStage s = (.bubble, s.pc) := by
  have hnone : s.prog[s.pc]? = none := List.getElem?_eq_none hpc
  simp [fetchStage, hif, hnone]

/-! ### Execute -/

/-- With no producer in flight the forwarding unit answers the register file (R116). -/
theorem operand_of_bubbles {s : State} (hem : s.exMem = .bubble) (hmw : s.memWb = .bubble) (x : Regs) (r : Reg) :
    operand x s r = .next (readReg x r) := by
  by_cases hr : r = 0
  · simp [operand, readReg, hr]
  · simp [operand, forward, hr, hem, hmw, producerOf]

/-- Everything Execute can make of a record: a result for an ALU instruction, the record itself for a `NOP`, an address for an `LW`, an
address and a word to store for an `SW` (R143 to R146). -/
theorem fillOf_next {i : Instr} {x : Regs} {s : State} {r r' : InFlight} (h : fillOf i x s r = .next r') :
    (memAccess i = .pass ∧ i ≠ .nop ∧ ∃ v, r' = { r with result := some v }) ∨
    (i = .nop ∧ r' = r) ∨
    (∃ rt rs imm a, i = .lw rt rs imm ∧ operand x s rs = .next a ∧
      r' = { r with address := some (effectiveAddress a imm) }) ∨
    (∃ rt rs imm a v, i = .sw rt rs imm ∧ operand x s rs = .next a ∧ operand x s rt = .next v ∧
      r' = { r with address := some (effectiveAddress a imm), storeValue := some v }) := by
  cases i <;> simp only [fillOf, bind_eq_next, Host.Outcome.next.injEq] at h
  case add | sub | and | or | slt =>
    obtain ⟨a, -, b, -, rfl⟩ := h
    exact .inl ⟨rfl, nofun, _, rfl⟩
  case addi | slti =>
    obtain ⟨a, -, rfl⟩ := h
    exact .inl ⟨rfl, nofun, _, rfl⟩
  case lw rt rs imm =>
    obtain ⟨a, ha, rfl⟩ := h
    exact .inr (.inr (.inl ⟨rt, rs, imm, a, rfl, ha, rfl⟩))
  case sw rt rs imm =>
    obtain ⟨a, ha, v, hv, rfl⟩ := h
    exact .inr (.inr (.inr ⟨rt, rs, imm, a, v, rfl, ha, hv, rfl⟩))
  case nop => exact .inr (.inl ⟨rfl, h.symm⟩)

/-- The Execute step (R143): a `Bubble` stays one, a record gets the fields of its instruction. -/
def executeStage (x : Regs) (s : State) : Result Latch :=
  match s.idEx with
  | .bubble => .next .bubble
  | .inFlight r => (fillOf r.instr x s r).bind fun r' => .next (.inFlight r')

/-- The Execute step on a `Bubble`. -/
theorem executeStage_of_bubble {x : Regs} {s : State} (h : s.idEx = .bubble) : executeStage x s = .next .bubble := by
  simp [executeStage, h]

/-- The Execute step on a record answers its record with the fields filled in. -/
theorem executeStage_of_inFlight {x : Regs} {s : State} {r : InFlight} {em' : Latch} (hr : s.idEx = .inFlight r) :
    executeStage x s = .next em' ↔ ∃ r', fillOf r.instr x s r = .next r' ∧ em' = .inFlight r' := by
  simp only [executeStage, hr, bind_eq_next, Host.Outcome.next.injEq, eq_comm (a := em')]

/-! ### The step -/

/-- A step is the cycle whose Execute is the Execute step (R152). -/
theorem step_eq_cycleWith (s : State) : step s = cycleWith (fun x => executeStage x s) s := by
  rw [step_eq]
  cases hid : s.idEx with
  | bubble => simp only [bubbleCycle, executeStage, hid]
  | inFlight r => simp only [exec_eq, executeCycle, executeStage, hid, recordInExecute_of_idEx hid, issued_of_idEx hid]

/-- Everything a step can answer: the publication of Write-Back, Memory and Execute. -/
theorem step_next {s t : State} :
    step s = .next t ↔ s.fault = none ∧ ∃ x' n' m' mw' em', writeBackStage s = .next (x', n') ∧
      memoryStage s = .next (m', mw') ∧ executeStage x' s = .next em' ∧ t = publish s x' n' m' mw' em' := by
  rw [step_eq_cycleWith, cycleWith_next]

/-- The meaning of the instruction in `ID_EX` is the step. -/
theorem exec_eq_step {s : State} {r : InFlight} (h : s.idEx = .inFlight r) : exec r.instr s = step s := by
  rw [step_eq, h]

/-- A `Bubble` in Execute leaves a `Bubble` in `EX_MEM` (R155). -/
theorem step_exMem_of_bubble {s t : State} (h : step s = .next t) (hid : s.idEx = .bubble) : t.exMem = .bubble := by
  obtain ⟨-, x', n', m', mw', em', -, -, hex, rfl⟩ := step_next.mp h
  rw [executeStage_of_bubble hid] at hex
  cases hex
  rfl

/-- A record in Execute is in `EX_MEM` after the step, with its fields filled in from the register file of Write-Back. -/
theorem step_exMem_of_inFlight {s t : State} (h : step s = .next t) {r : InFlight} (hid : s.idEx = .inFlight r) :
    ∃ r', fillOf r.instr t.x s r = .next r' ∧ t.exMem = .inFlight r' := by
  obtain ⟨-, x', n', m', mw', em', -, -, hex, rfl⟩ := step_next.mp h
  exact (executeStage_of_inFlight hid).mp hex

/-- A `Bubble` in Memory leaves a `Bubble` in `MEM_WB` (R155). -/
theorem step_memWb_of_bubble {s t : State} (h : step s = .next t) (hem : s.exMem = .bubble) : t.memWb = .bubble := by
  obtain ⟨-, x', n', m', mw', em', -, hmem, -, rfl⟩ := step_next.mp h
  exact memoryStage_of_bubble hmem hem

/-- A record in Memory is in `MEM_WB` after the step. -/
theorem step_memWb_of_inFlight {s t : State} (h : step s = .next t) {p : InFlight} (hem : s.exMem = .inFlight p) :
    ∃ q, t.memWb = .inFlight q ∧ q.instr = p.instr := by
  obtain ⟨-, x', n', m', mw', em', -, hmem, -, rfl⟩ := step_next.mp h
  exact memoryStage_of_inFlight hmem hem

/-- A `Bubble` in `MEM_WB` leaves the register file as it is (R155). -/
theorem step_x_of_bubble {s t : State} (h : step s = .next t) (hmw : s.memWb = .bubble) : t.x = s.x := by
  obtain ⟨-, x', n', m', mw', em', hwb, -, -, rfl⟩ := step_next.mp h
  exact writeBackStage_of_bubble hwb hmw

/-- With nothing left to fetch or decode, a step leaves `Bubble`s in `IF_ID` and `ID_EX` and holds `PC` (R68, R155). -/
theorem step_past_end {s t : State} (h : step s = .next t) (hif : s.ifId = .bubble) (hpc : s.prog.length ≤ s.pc) :
    t.ifId = .bubble ∧ t.idEx = .bubble ∧ t.pc = s.pc := by
  obtain ⟨-, x', n', m', mw', em', -, -, -, rfl⟩ := step_next.mp h
  simp [fetchStage_past_end hif hpc, decodeStage, hif]

end Sys2Proof.Proofs
end

section
/-! The frame of a cycle, and of the three cycles in which an instruction alone in the pipeline passes (R27, R29, R55, R97, R136, R138). -/

namespace Sys2Proof.Proofs

open Sys2Proof.Machine Sys2Proof.Laws

/-- What a cycle from `s` to `t` leaves unchanged. -/
structure CycleFrame (s t : State) : Prop where
  regs : ∀ r, committedReg s ≠ some r → readReg t.x r = readReg s.x r
  mem : ∀ k, (∀ a, storeAddress s = some a → wordIndex a ≠ k) → Mem.read t.dmem k = Mem.read s.dmem k
  prog : t.prog = s.prog
  fault : t.fault = s.fault
  pc : t.pc = s.pc ∨ t.pc = s.pc + 1
  retired : t.retired = s.retired ∨ t.retired = s.retired + 1

/-- Every cycle that answers has the frame, whatever Execute computes in it. -/
theorem cycleWith_frame {ex : Regs → Result Latch} {s t : State} (h : cycleWith ex s = .next t) : CycleFrame s t := by
  obtain ⟨hf, x', n', m', mw', em', hwb, hmem, -, rfl⟩ := cycleWith_next.mp h
  exact {
    regs := fun _ hr => writeBackStage_frame hwb hr
    mem := fun _ hk => memoryStage_frame hmem hk
    prog := rfl
    fault := hf.symm
    pc := fetchStage_pc s
    retired := writeBackStage_retired hwb }

/-- Every step that answers has the frame. -/
theorem step_frame {s t : State} (h : step s = .next t) : CycleFrame s t :=
  cycleWith_frame (step_eq_cycleWith s ▸ h)

/-- Every meaning that answers has the frame: placing the instruction in `ID_EX` touches none of what the frame speaks of. -/
theorem exec_frame {i : Instr} {s t : State} (h : exec i s = .next t) : CycleFrame s t := by
  rw [exec_eq, executeCycle] at h
  obtain ⟨regs, mem, prog, fault, pc, retired⟩ := cycleWith_frame h
  exact ⟨regs, mem, prog, fault, pc, retired⟩

/-- Settles O41: the frame of the cycle, clause by clause. -/
theorem executeCycleFrame : Obligations.ExecuteCycleFrame := by
  intro i s t h
  obtain ⟨regs, mem, prog, fault, pc, retired⟩ := exec_frame h
  exact ⟨regs, mem, prog, fault, pc, retired⟩

/-- An `SW` executed with no producer in flight stores, one cycle later, to its effective address; nothing else stores there
(R139, R146). -/
theorem storeAddress_after_alone {i : Instr} {s t : State} (hs : s.Alone i) (h : step s = .next t) {a : Word}
    (ha : storeAddress t = some a) :
    ∃ rt rs imm, i = .sw rt rs imm ∧ a = effectiveAddress (readReg s.x rs) imm := by
  obtain ⟨hid, -, hem, hmw, -, -⟩ := hs
  obtain ⟨r', hfill, hem'⟩ := step_exMem_of_inFlight h hid
  obtain ⟨p, hp, hst, hpa⟩ := storeAddress_eq_some.mp ha
  obtain rfl : r' = p := Latch.inFlight.inj (hem'.symm.trans hp)
  rw [fillOf_instr hfill] at hst
  change memAccess i = .store at hst
  change fillOf i t.x s (.fetched i) = .next r' at hfill
  obtain ⟨hpass, -⟩ | ⟨rfl, -⟩ | ⟨rt, rs, imm, b, rfl, -⟩ | ⟨rt, rs, imm, b, v, rfl, hb, -, rfl⟩ := fillOf_next hfill
  · rw [hpass] at hst
    cases hst
  · cases hst
  · cases hst
  · rw [operand_of_bubbles hem hmw, step_x_of_bubble h hmw] at hb
    cases hb
    exact ⟨rt, rs, imm, rfl, (Option.some.inj hpa).symm⟩

/-- Settles O42: the frames of the three cycles put together. Only the third commits a register, the instruction's destination; only
the second stores a word, the one at the effective address of an `SW`. -/
theorem passageFrame : Obligations.PassageFrame := by
  rintro i s t u w hs ⟨h1, h2, h3⟩
  have ⟨hid, hif, hem, hmw, _, hpc⟩ := hs
  replace h1 : step s = .next t := exec_eq_step hid ▸ h1
  have f1 := step_frame h1
  have f2 := step_frame h2
  have f3 := step_frame h3
  -- Where the instruction is: `EX_MEM` in `t`, `MEM_WB` in `u`, gone in `w`.
  obtain ⟨r, hfill, htem⟩ := step_exMem_of_inFlight h1 hid
  have htmw := step_memWb_of_bubble h1 hem
  obtain ⟨htif, htid, htpc⟩ := step_past_end h1 hif hpc
  have huem := step_exMem_of_bubble h2 htid
  obtain ⟨q, humw, hq⟩ := step_memWb_of_inFlight h2 htem
  obtain ⟨huif, huid, hupc⟩ := step_past_end h2 htif (by rwa [f1.prog, htpc])
  obtain ⟨hwif, hwid, hwpc⟩ := step_past_end h3 huif (by rwa [f2.prog, f1.prog, hupc, htpc])
  have hqi : q.instr = i := hq.trans (fillOf_instr hfill)
  refine ⟨fun d hd => ?_, fun k hk => ?_, by rw [hwpc, hupc, htpc], by rw [f3.fault, f2.fault, f1.fault],
    by rw [f3.prog, f2.prog, f1.prog], hwif, hwid, step_exMem_of_bubble h3 huid, step_memWb_of_bubble h3 huem⟩
  · have hcommit : committedReg u ≠ some d := by
      intro hc
      obtain ⟨q', hq', hdest, -⟩ := committedReg_eq_some.mp hc
      obtain rfl : q = q' := Latch.inFlight.inj (humw.symm.trans hq')
      exact hd (hqi ▸ hdest)
    calc readReg w.x d = readReg u.x d := f3.regs d hcommit
      _ = readReg s.x d := by rw [step_x_of_bubble h2 htmw, step_x_of_bubble h1 hmw]
  · have hstore : ∀ a, storeAddress t = some a → wordIndex a ≠ k := by
      intro a ha
      obtain ⟨rt, rs, imm, hi, rfl⟩ := storeAddress_after_alone hs h1 ha
      exact hk rt rs imm hi
    calc Mem.read w.dmem k = Mem.read u.dmem k := f3.mem k (by simp [storeAddress, huem])
      _ = Mem.read t.dmem k := f2.mem k hstore
      _ = Mem.read s.dmem k := f1.mem k (by simp [storeAddress, hem])

end Sys2Proof.Proofs
end

section
/-! Every step keeps the invariant of the datapath (R23, R26, R34, R111): one lemma per latch for its fields, one for the interlock. -/

namespace Sys2Proof.Proofs

open Sys2Proof.Machine Sys2Proof.Laws

/-! ### The fields of a record, by what its instruction does in Memory (R34) -/

/-- An ALU instruction leaves Execute with a result and no other field. -/
theorem shapeExecuted_of_alu {r : InFlight} (hp : memAccess r.instr = .pass) (hn : r.instr ≠ .nop) :
    r.shapeExecuted = (r.result.isSome && r.address.isNone && r.storeValue.isNone) := by
  unfold InFlight.shapeExecuted
  cases hi : r.instr <;> simp_all [memAccess, Instr.opcode]

/-- Memory adds the loaded word to an `LW` and nothing to any other record. -/
theorem shapeAccessed_of_not_load {r : InFlight} (h : memAccess r.instr ≠ .load) : r.shapeAccessed = r.shapeExecuted := by
  unfold InFlight.shapeAccessed
  cases hi : r.instr <;> simp_all [memAccess, Instr.opcode]

/-- An `LW` that has its word has the fields of `MEM_WB` if it had those of `EX_MEM`. -/
theorem shapeAccessed_of_load {p : InFlight} (hl : memAccess p.instr = .load) (h : p.shapeExecuted = true) (w : Word) :
    InFlight.shapeAccessed { p with result := some w } = true := by
  unfold InFlight.shapeExecuted at h
  unfold InFlight.shapeAccessed
  cases hi : p.instr <;> simp_all [memAccess, Instr.opcode]

/-! ### Each latch keeps its fields -/

/-- Fetch produces a record without fields (R150). -/
theorem fetchStage_shape {s : State} (h : s.ifId.holds InFlight.shapeFetched = true) :
    (fetchStage s).1.holds InFlight.shapeFetched = true := by
  obtain ⟨-, hf⟩ | ⟨-, i, -, hf⟩ | ⟨-, -, hf⟩ := fetchStage_cases s
  · rwa [hf]
  · rw [hf]
    rfl
  · rw [hf]
    rfl

/-- Decode adds no field (R147). -/
theorem decodeStage_shape {s : State} (h : s.ifId.holds InFlight.shapeFetched = true) :
    (decodeStage s).holds InFlight.shapeFetched = true := by
  obtain ⟨-, hd⟩ | ⟨-, hd⟩ := decodeStage_cases s
  · rw [hd]
    rfl
  · rwa [hd]

/-- Execute fills in exactly the fields of the column `EX_MEM` (R34, R143 to R146). -/
theorem fillOf_shape {x : Regs} {s : State} {r r' : InFlight} (h : fillOf r.instr x s r = .next r')
    (hr : r.shapeFetched = true) : r'.shapeExecuted = true := by
  simp only [InFlight.shapeFetched, Bool.and_eq_true] at hr
  obtain ⟨⟨hres, haddr⟩, hval⟩ := hr
  obtain ⟨hp, hn, v, rfl⟩ | ⟨hi, rfl⟩ | ⟨rt, rs, imm, a, hi, -, rfl⟩ | ⟨rt, rs, imm, a, v, hi, -, -, rfl⟩ := fillOf_next h
  · simpa [haddr, hval] using shapeExecuted_of_alu (r := { r with result := some v }) hp hn
  · simp [InFlight.shapeExecuted, hi, Instr.opcode, hres, haddr, hval]
  · simp [InFlight.shapeExecuted, hi, Instr.opcode, hres, hval]
  · simp [InFlight.shapeExecuted, hi, Instr.opcode, hres]

/-- The Execute step fills in exactly the fields of the column `EX_MEM` (R34). -/
theorem executeStage_shape {x : Regs} {s : State} {em' : Latch} (h : executeStage x s = .next em')
    (hs : s.idEx.holds InFlight.shapeFetched = true) : em'.holds InFlight.shapeExecuted = true := by
  cases hid : s.idEx with
  | bubble =>
    rw [executeStage_of_bubble hid] at h
    cases h
    rfl
  | inFlight r =>
    obtain ⟨r', hfill, rfl⟩ := (executeStage_of_inFlight hid).mp h
    rw [hid] at hs
    exact fillOf_shape hfill hs

/-- Memory fills in exactly the fields of the column `MEM_WB` (R34, R141, R142). -/
theorem memoryStage_shape {s : State} {m' : Mem} {mw' : Latch} (h : memoryStage s = .next (m', mw'))
    (hs : s.exMem.holds InFlight.shapeExecuted = true) : mw'.holds InFlight.shapeAccessed = true := by
  obtain ⟨-, -, rfl⟩ | ⟨p, hp, hpass, -, rfl⟩ | ⟨p, a, hp, hload, -, -, -, rfl⟩ | ⟨p, a, v, hp, hstore, -, -, -, -, rfl⟩ :=
    memoryStage_next h
  · rfl
  · rw [hp] at hs
    exact (shapeAccessed_of_not_load (by simp [hpass])).trans hs
  · rw [hp] at hs
    exact shapeAccessed_of_load hload hs _
  · rw [hp] at hs
    exact (shapeAccessed_of_not_load (by simp [hstore])).trans hs

/-! ### The interlock and the invariant -/

/-- The interlock holds after every step (R111): the reader of an `LW` in Execute is held in Decode, and a `Bubble` follows the `LW`. -/
theorem step_interlocked {s t : State} (h : step s = .next t) : t.interlocked = true := by
  obtain ⟨-, x', n', m', mw', em', -, -, hex, rfl⟩ := step_next.mp h
  simp only [State.interlocked, publish_exMem, publish_idEx]
  cases hid : s.idEx with
  | bubble =>
    rw [executeStage_of_bubble hid] at hex
    cases hex
    rfl
  | inFlight r =>
    obtain ⟨r', hfill, rfl⟩ := (executeStage_of_inFlight hid).mp hex
    obtain ⟨-, hd⟩ | ⟨hproceed, hd⟩ := decodeStage_cases s
    · rw [hd]
    · rw [hd]
      cases hif : s.ifId with
      | bubble => rfl
      | inFlight c =>
        rw [hif, hid, hazard_inFlight] at hproceed
        simp only [fillOf_instr hfill]
        cases hu : loadUse r.instr c.instr with
        | false => rfl
        | true => simp [hu] at hproceed

/-- Settles O13: each field of the invariant from the stage step that produces its element. -/
theorem stepKeepsTheInvariant : Obligations.StepKeepsTheInvariant := by
  intro s t hs h
  have hinterlocked := step_interlocked h
  obtain ⟨-, x', n', m', mw', em', hwb, hmem, hex, rfl⟩ := step_next.mp h
  exact {
    zero := (writeBackStage_zero_word hwb).trans hs.zero
    mem := memoryStage_keeps_wf hmem hs.mem
    pcBound := fetchStage_pc_le hs.pcBound
    progBound := hs.progBound
    ifIdShape := fetchStage_shape hs.ifIdShape
    idExShape := decodeStage_shape hs.ifIdShape
    exMemShape := executeStage_shape hex hs.idExShape
    memWbShape := memoryStage_shape hmem hs.exMemShape
    interlocked := hinterlocked
    faultFromExMem := .inl rfl }

end Sys2Proof.Proofs
end

section
/-! The induction over host operations, once: what every cycle, fault, load, reset and poke keeps holds after any sequence of
operations. Register 0 is the first use of it (R23). -/

namespace Sys2Proof.Proofs

open Sys2Proof.Machine Sys2Proof.Laws

/-- A program that resolves from slot `k` on ends at or before `PROG_MAX` (R212). -/
theorem resolveFrom_length_le {α : Type} {res : α → Except RecordError Instr} {as : List α} {k : Nat} {is : List Instr}
    (h : resolveFrom res k as = .ok is) (hk : k ≤ Config.progMax) : k + is.length ≤ Config.progMax := by
  induction as generalizing k is with
  | nil =>
    cases h
    exact hk
  | cons a as ih =>
    obtain ⟨hlt, i, js, -, hjs, rfl⟩ := resolveFrom_cons_ok.mp h
    have := ih hjs hlt
    simp only [List.length_cons]
    omega

/-- What every change the host can make to a state keeps: a cycle, the record of its fault, a program within `PROG_MAX` loaded, a reset,
and a poke of each kind. -/
structure HostKeeps (P : State → Prop) : Prop where
  step : ∀ s t, P s → step s = .next t → P t
  fault : ∀ s f, P s → Machine.step s = .fault f → P (s.recordFault f)
  load : ∀ s prog, P s → prog.length ≤ Config.progMax → P (s.loaded prog)
  reset : ∀ s, P s → P s.afterReset
  pokeReg : ∀ s i v, P s → P { s with x := writeReg s.x i v }
  pokeMem : ∀ s k v, P s → k < Config.dmemWords → P { s with dmem := Mem.write s.dmem k v }

section

variable {P : State → Prop} (hP : HostKeeps P)
include hP

/-- `step` keeps it, whatever the cycle's outcome (R215). -/
theorem hostStep_keeps {s : State} (hs : P s) : P (hostStep s).1 := by
  cases h : step s with
  | next t => simpa [hostStep_of_next h] using hP.step s t hs h
  | fault f => simpa [hostStep_of_fault h] using hP.fault s f hs h
  | refused q => simpa [hostStep_of_refused h] using hs

/-- The loop of `run` keeps it, by induction on the cycles left (R216). -/
theorem runFrom_keeps (more done : Nat) (last : Snapshot) {s : State} (hs : P s) : P (runFrom done last s more).1 := by
  induction more generalizing done last s with
  | zero => exact hs
  | succ more ih =>
    cases h : step s with
    | next t =>
      rw [runFrom_of_next h]
      exact ih _ _ (hP.step s t hs h)
    | fault f =>
      rw [runFrom_of_fault h]
      exact hP.fault s f hs h
    | refused q => simpa [runFrom, h] using hs

/-- `run` keeps it (R216, R246). -/
theorem hostRun_keeps (n : Int) {s : State} (hs : P s) : P (hostRun n s).1 := by
  unfold hostRun
  split
  · exact hs
  · split
    · exact hs
    · exact runFrom_keeps hP _ _ _ hs

/-- `load` of records or of words keeps it; one that clears the registers and data memory is a reset first (R211, R212, R214). -/
theorem hostLoad_keeps {α : Type} (c : Bool) (res : α → Except RecordError Instr) (as : List α) {s : State} (hs : P s) :
    P (hostLoad c (resolveFrom res 0 as) s).1 := by
  cases h : resolveFrom res 0 as with
  | error e => exact hs
  | ok prog =>
    have hlen : prog.length ≤ Config.progMax := by
      simpa using resolveFrom_length_le h (Nat.zero_le _)
    cases c with
    | false => exact hP.load s prog hs hlen
    | true => exact hP.load s.afterReset prog (hP.reset s hs) hlen

omit hP in
/-- A poke keeps what the state has and the poked state has when the index is in range (R220, R225). -/
theorem poked_keeps {inRange : Bool} {s t : State} (hs : P s) (ht : inRange = true → P t) : P (poked inRange s t).1 := by
  obtain ⟨f, -, h⟩ | ⟨-, hin, h⟩ | ⟨-, -, h⟩ := poked_cases inRange s t
  · rwa [h]
  · rw [h]
    exact ht hin
  · rwa [h]

/-- Every host operation keeps it. -/
theorem hostCallWith_keeps (c : Bool) (op : HostOp) {s : State} (hs : P s) : P (hostCallWith c op s).1 := by
  cases op with
  | load rs => exact hostLoad_keeps hP c resolve rs hs
  | loadWords ws => exact hostLoad_keeps hP c resolveWord ws hs
  | step => exact hostStep_keeps hP hs
  | run n => exact hostRun_keeps hP n hs
  | reset => exact hP.reset s hs
  | pokeReg i v => exact poked_keeps hs fun _ => hP.pokeReg s _ v hs
  | pokeMem k v =>
    refine poked_keeps hs fun hk => hP.pokeMem s _ v hs ?_
    have := of_decide_eq_true hk
    simp only [Config.dmemWords] at this ⊢
    omega

/-- Every sequence of host operations keeps it. -/
theorem hostCalls_keeps (c : Bool) (ops : List HostOp) {s : State} (hs : P s) : P (hostCalls c ops s) := by
  induction ops generalizing s with
  | nil => exact hs
  | cons op ops ih => exact ih (hostCallWith_keeps hP c op hs)

end

/-! ### Register 0 -/

/-- Register 0 holds 0 in its stored word (R23). -/
def ZeroWord (s : State) : Prop := s.x[0] = 0#32

/-- A cycle keeps the stored word of register 0, in a state of the invariant or not. -/
theorem step_zero_word {s t : State} (h : step s = .next t) : t.x[0] = s.x[0] := by
  obtain ⟨-, x', n', m', mw', em', hwb, -, -, rfl⟩ := step_next.mp h
  exact writeBackStage_zero_word hwb

/-- Every change the host can make keeps register 0 at 0; a poke of it is discarded (R22, R220). -/
theorem zeroWord_hostKeeps : HostKeeps ZeroWord where
  step _ _ hs h := (step_zero_word h).trans hs
  fault _ _ hs _ := hs
  load _ _ hs _ := hs
  reset _ _ := rfl
  pokeReg s i v hs := (writeReg_zero_word s.x i v).trans hs
  pokeMem _ _ _ hs _ := hs

/-- Settles O15: register 0 is kept at 0 by everything the host can do, and reads 0 by R21. -/
theorem registerZeroStaysZero : Obligations.RegisterZeroStaysZero :=
  ⟨fun c ops => hostCalls_keeps zeroWord_hostKeeps c ops (show ZeroWord State.reset from rfl),
    fun _ _ hs h => (step_zero_word h).trans hs,
    fun _ => rfl⟩

end Sys2Proof.Proofs
end

section
/-! Encoder and decoder as inverses of each other, and both against the tables of R84 and R85 (30_encoding.md Part 2). The layer the
proofs go through: a word is put together from its fields, a row of the opcode map is its opcode's word with every operand 0, and every
row's word encodes the instruction its bits name. -/

namespace Sys2Proof.Proofs

open Sys2Proof.Machine Sys2Proof.Laws Sys2Proof.Statements

/-! ### The encoder and the shift formula (R85) -/

/-- A field put above the bits of a word adds to it. -/
theorem at_or_toNat {v n m : Nat} {x : Word} (hx : x.toNat = m) (hm : m < 2 ^ n) (hv : v * 2 ^ n < 2 ^ 32) :
    (at_ v n ||| x).toNat = v * 2 ^ n + m := by
  have hv' : v < 2 ^ 32 := Nat.lt_of_le_of_lt (Nat.le_mul_of_pos_right v (Nat.two_pow_pos n)) hv
  have hat : (at_ v n).toNat = v <<< n := by
    rw [at_, BitVec.toNat_shiftLeft, BitVec.toNat_ofNat, Nat.mod_eq_of_lt hv', Nat.shiftLeft_eq, Nat.mod_eq_of_lt hv]
  rw [BitVec.toNat_or, hat, hx, ← Nat.shiftLeft_add_eq_or_of_lt hm, Nat.shiftLeft_eq]

/-- The format R encoder is the shift formula. -/
theorem encodeR_eq_wordR (funct : BitVec 6) (rd rs rt : Reg) : encodeR funct rd rs rt = wordR funct.toNat rd rs rt := by
  have hf : (BitVec.ofNat 32 funct.toNat).toNat = funct.toNat := Nat.mod_eq_of_lt (by omega)
  have hrd := at_or_toNat (v := rd.val) (n := 11) hf (by omega) (by omega)
  have hrt := at_or_toNat (v := rt.val) (n := 16) hrd (by omega) (by omega)
  have hrs := at_or_toNat (v := rs.val) (n := 21) hrt (by omega) (by omega)
  apply BitVec.eq_of_toNat_eq
  rw [encodeR_toNat, wordR, BitVec.or_assoc, BitVec.or_assoc, hrs]
  omega

/-- The signed immediate modulo 2^16 is the unsigned reading of its field. -/
theorem toInt_emod_toNat (imm : Imm) : (imm.toInt % 2 ^ 16).toNat = imm.toNat :=
  (BitVec.toNat_ofInt (n := 16) imm.toInt).symm.trans (by rw [BitVec.ofInt_toInt])

/-- The format I encoder is the shift formula. -/
theorem encodeI_eq_wordI (opcode6 : BitVec 6) (rt rs : Reg) (imm : Imm) :
    encodeI opcode6 rt rs imm = wordI opcode6.toNat rt rs imm := by
  have himm : (BitVec.ofNat 32 imm.toNat).toNat = imm.toNat := Nat.mod_eq_of_lt (by omega)
  have hrt := at_or_toNat (v := rt.val) (n := 16) himm (by omega) (by omega)
  have hrs := at_or_toNat (v := rs.val) (n := 21) hrt (by omega) (by omega)
  have hop := at_or_toNat (v := opcode6.toNat) (n := 26) hrs (by omega) (by omega)
  apply BitVec.eq_of_toNat_eq
  rw [encodeI_toNat, wordI, toInt_emod_toNat, BitVec.or_assoc, BitVec.or_assoc, hop]
  omega

/-- Settles O1: the two formats by `encodeR_eq_wordR` and `encodeI_eq_wordI`, the worked examples by evaluation. -/
theorem encodeFollowsTheShiftFormula : Obligations.EncodeFollowsTheShiftFormula := by
  refine ⟨fun rd rs rt => ?_, fun rt rs imm => ?_, rfl, rfl, rfl, rfl, rfl, rfl⟩
  · exact ⟨encodeR_eq_wordR 0x20#6 rd rs rt, encodeR_eq_wordR 0x22#6 rd rs rt, encodeR_eq_wordR 0x24#6 rd rs rt,
      encodeR_eq_wordR 0x25#6 rd rs rt, encodeR_eq_wordR 0x2A#6 rd rs rt⟩
  · exact ⟨encodeI_eq_wordI 0x08#6 rt rs imm, encodeI_eq_wordI 0x0A#6 rt rs imm, encodeI_eq_wordI 0x23#6 rt rs imm,
      encodeI_eq_wordI 0x2B#6 rt rs imm⟩

/-! ### A word is put together from its fields (R81, R82) -/

/-- The format I encoder gives back the word whose fields it is given. -/
theorem encodeI_fields (w : Word) : encodeI (fieldOpcode w) (fieldRt w) (fieldRs w) (fieldImm w) = w := by
  apply BitVec.eq_of_toNat_eq
  rw [encodeI_toNat, fieldOpcode_toNat, fieldRt_val, fieldRs_val, fieldImm_toNat]
  omega

/-- The format R encoder gives back the word whose fields it is given, if `opcode6` and `shamt` are 0. -/
theorem encodeR_fields {w : Word} (hop : fieldOpcode w = 0#6) (hsh : fieldShamt w = 0#5) :
    encodeR (fieldFunct w) (fieldRd w) (fieldRs w) (fieldRt w) = w := by
  have hop' : w.toNat / 2 ^ 26 % 2 ^ 6 = 0 := by rw [← fieldOpcode_toNat, hop]; rfl
  have hsh' : w.toNat / 2 ^ 6 % 2 ^ 5 = 0 := by rw [← fieldShamt_toNat, hsh]; rfl
  apply BitVec.eq_of_toNat_eq
  rw [encodeR_toNat, fieldFunct_toNat, fieldRd_val, fieldRs_val, fieldRt_val]
  omega

/-! ### The round trip (R88) -/

/-- A format R word is decoded by its function code. -/
theorem decode_encodeR (funct : BitVec 6) (rd rs rt : Reg) :
    decode (encodeR funct rd rs rt) = decodeFunct (encodeR funct rd rs rt) := by
  simp [decode, fieldOpcode_encodeR]

/-- Settles O2: each branch of the decoder tests the fields the encoder put there, and reads the operands from theirs. -/
theorem decodeOfEncodeIsTheInstruction : Obligations.DecodeOfEncodeIsTheInstruction := by
  intro i
  cases i with
  | add | sub | and | or | slt =>
    simp [encode, decode_encodeR, decodeFunct, fieldShamt_encodeR, fieldFunct_encodeR, fieldRd_encodeR, fieldRs_encodeR,
      fieldRt_encodeR]
  | addi | slti | lw | sw =>
    simp [encode, decode, fieldOpcode_encodeI, fieldRs_encodeI, fieldRt_encodeI, fieldImm_encodeI]
  | nop => rfl

/-- Two instructions with one word are one instruction. -/
theorem encode_injective : Function.Injective encode := fun i j h =>
  Except.ok.inj <| (decodeOfEncodeIsTheInstruction i).symm.trans (h ▸ decodeOfEncodeIsTheInstruction j)

/-- With `opcode6 = 0`, an instruction's word is the one it was read from: `shamt` is 0 and `funct` its function code, or all is 0. -/
theorem encode_of_decodeFunct {w : Word} {i : Instr} (hop : fieldOpcode w = 0#6) (h : decodeFunct w = .ok i) :
    encode i = w := by
  unfold decodeFunct at h
  split_ifs at h with hsh hadd hsub hand hor hslt hnop hzero <;> cases h
  all_goals have hw := encodeR_fields hop (not_not.mp hsh)
  · rwa [hadd] at hw
  · rwa [hsub] at hw
  · rwa [hand] at hw
  · rwa [hor] at hw
  · rwa [hslt] at hw
  · exact hzero.symm

/-- Settles O3: each branch of the decoder that answers an instruction has read every bit of the word. -/
theorem encodeOfDecodeIsTheWord : Obligations.EncodeOfDecodeIsTheWord := by
  intro w i h
  have hw := encodeI_fields w
  unfold decode at h
  split_ifs at h with hzero haddi hslti hlw hsw
  · exact encode_of_decodeFunct hzero h
  all_goals cases h
  · rwa [haddi] at hw
  · rwa [hslti] at hw
  · rwa [hlw] at hw
  · rwa [hsw] at hw

/-- The decoder reads an instruction from exactly one word, its encoding. -/
theorem decode_eq_ok_iff {w : Word} {i : Instr} : decode w = .ok i ↔ encode i = w :=
  ⟨encodeOfDecodeIsTheWord w i, fun h => h ▸ decodeOfEncodeIsTheInstruction i⟩

/-! ### The opcode map (R84) -/

/-! R88 names the operands by quotients of the word: they are its fields. -/

theorem ofNat_eq_fieldRs (w : Word) : Fin.ofNat 32 (w.toNat / 2 ^ 21) = fieldRs w := Fin.ext (fieldRs_val w).symm

theorem ofNat_eq_fieldRt (w : Word) : Fin.ofNat 32 (w.toNat / 2 ^ 16) = fieldRt w := Fin.ext (fieldRt_val w).symm

theorem ofNat_eq_fieldRd (w : Word) : Fin.ofNat 32 (w.toNat / 2 ^ 11) = fieldRd w := Fin.ext (fieldRd_val w).symm

theorem ofNat_eq_fieldImm (w : Word) : BitVec.ofNat 16 w.toNat = fieldImm w :=
  BitVec.eq_of_toNat_eq (fieldImm_toNat w).symm

/-- The instruction R88 names has the opcode it is named with. -/
@[simp] theorem opcode_instrFromBits (o : Opcode) (w : Word) : (instrFromBits o w).opcode = o := by
  cases o <;> rfl

/-- The bits that select an instruction, by its format: `opcode6`, `shamt` and `funct`; `opcode6`; all (R84). -/
def selectMask : Format → Word
  | .r => 0xFC0007FF#32
  | .i => 0xFC000000#32
  | .n => 0xFFFFFFFF#32

/-- An opcode's row of the map: the mask of its format, and its word with every operand 0. -/
def rowOf (o : Opcode) : OpcodeRow := ⟨o, selectMask o.format, encode (instrFromBits o 0#32)⟩

/-- The opcode map has one row for each opcode, and no other. -/
theorem mem_opcodeMap {row : OpcodeRow} : row ∈ opcodeMap ↔ ∃ o, row = rowOf o := by
  have hmap : opcodeMap = [Opcode.add, .sub, .and, .or, .slt, .addi, .slti, .lw, .sw, .nop].map rowOf := by decide
  rw [hmap, List.mem_map]
  constructor
  · rintro ⟨o, -, rfl⟩
    exact ⟨o, rfl⟩
  · rintro ⟨o, rfl⟩
    exact ⟨o, by cases o <;> decide, rfl⟩

/-- The format R mask clears the operands and keeps the rest. -/
theorem encodeR_and_mask (funct : BitVec 6) (rd rs rt : Reg) :
    encodeR funct rd rs rt &&& 0xFC0007FF#32 = encodeR funct 0 0 0 := by
  change (0#6 ++ regBits rs ++ regBits rt ++ regBits rd ++ 0#5 ++ funct) &&&
    (BitVec.allOnes 6 ++ 0#5 ++ 0#5 ++ 0#5 ++ BitVec.allOnes 5 ++ BitVec.allOnes 6) = _
  simp only [BitVec.and_append, BitVec.and_zero, BitVec.and_allOnes]
  rfl

/-- The format I mask clears the operands and keeps `opcode6`. -/
theorem encodeI_and_mask (opcode6 : BitVec 6) (rt rs : Reg) (imm : Imm) :
    encodeI opcode6 rt rs imm &&& 0xFC000000#32 = encodeI opcode6 0 0 0#16 := by
  change (opcode6 ++ regBits rs ++ regBits rt ++ imm) &&& (BitVec.allOnes 6 ++ 0#5 ++ 0#5 ++ 0#16) = _
  simp only [BitVec.and_append, BitVec.and_zero, BitVec.and_allOnes]
  rfl

/-- The word of an instruction matches its row. -/
theorem rowOf_matches_encode (i : Instr) : (rowOf i.opcode).Matches (encode i) := by
  cases i with
  | add | sub | and | or | slt => exact encodeR_and_mask ..
  | addi | slti | lw | sw => exact encodeI_and_mask ..
  | nop => rfl

/-- The bits of an instruction's word name that instruction. -/
theorem instrFromBits_encode (i : Instr) : instrFromBits i.opcode (encode i) = i := by
  cases i with
  | add | sub | and | or | slt =>
    simp only [Instr.opcode, encode, instrFromBits, ofNat_eq_fieldRd, ofNat_eq_fieldRs, ofNat_eq_fieldRt, fieldRd_encodeR,
      fieldRs_encodeR, fieldRt_encodeR]
  | addi | slti | lw | sw =>
    simp only [Instr.opcode, encode, instrFromBits, ofNat_eq_fieldRs, ofNat_eq_fieldRt, ofNat_eq_fieldImm, fieldRs_encodeI,
      fieldRt_encodeI, fieldImm_encodeI]
  | nop => rfl

/-- A mask with every bit of a field set keeps the field. -/
theorem extractLsb'_and_of_allOnes {m : Word} {start len : Nat} (h : m.extractLsb' start len = BitVec.allOnes len) (w : Word) :
    (w &&& m).extractLsb' start len = w.extractLsb' start len := by
  rw [BitVec.extractLsb'_and, h, BitVec.and_allOnes]

/-- A word that has the selecting bits of a format R row has its own operands beside them. -/
theorem encodeR_of_and_mask {funct : BitVec 6} {w : Word} (h : w &&& 0xFC0007FF#32 = encodeR funct 0 0 0) :
    encodeR funct (fieldRd w) (fieldRs w) (fieldRt w) = w := by
  have hop : fieldOpcode w = 0#6 := by
    rw [← fieldOpcode_encodeR funct 0 0 0, ← h]
    exact (extractLsb'_and_of_allOnes rfl w).symm
  have hsh : fieldShamt w = 0#5 := by
    rw [← fieldShamt_encodeR funct 0 0 0, ← h]
    exact (extractLsb'_and_of_allOnes rfl w).symm
  have hf : fieldFunct w = funct := by
    rw [← fieldFunct_encodeR funct 0 0 0, ← h]
    exact (extractLsb'_and_of_allOnes rfl w).symm
  exact hf ▸ encodeR_fields hop hsh

/-- A word that has the selecting bits of a format I row has its own operands beside them. -/
theorem encodeI_of_and_mask {opcode6 : BitVec 6} {w : Word} (h : w &&& 0xFC000000#32 = encodeI opcode6 0 0 0#16) :
    encodeI opcode6 (fieldRt w) (fieldRs w) (fieldImm w) = w := by
  have hop : fieldOpcode w = opcode6 := by
    rw [← fieldOpcode_encodeI opcode6 0 0 0#16, ← h]
    exact (extractLsb'_and_of_allOnes rfl w).symm
  exact hop ▸ encodeI_fields w

/-- A word that matches a row is the encoding of the instruction its bits name: the row leaves no bit of it open (R86). -/
theorem encode_instrFromBits {o : Opcode} {w : Word} (h : (rowOf o).Matches w) : encode (instrFromBits o w) = w := by
  cases o with
  | add | sub | and | or | slt =>
    simp only [instrFromBits, encode, ofNat_eq_fieldRd, ofNat_eq_fieldRs, ofNat_eq_fieldRt]
    exact encodeR_of_and_mask h
  | addi | slti | lw | sw =>
    simp only [instrFromBits, encode, ofNat_eq_fieldRs, ofNat_eq_fieldRt, ofNat_eq_fieldImm]
    exact encodeI_of_and_mask h
  | nop => exact (BitVec.and_allOnes.symm.trans h).symm

/-- Settles O4: the decoder's words are the encodings, and so are the words that match a row; two rows that one word matches have the
opcode of the one instruction it encodes. -/
theorem decoderFollowsTheOpcodeMap : Obligations.DecoderFollowsTheOpcodeMap := by
  constructor
  · intro w i
    rw [decode_eq_ok_iff]
    constructor
    · rintro rfl
      exact ⟨_, mem_opcodeMap.mpr ⟨i.opcode, rfl⟩, rowOf_matches_encode i, (instrFromBits_encode i).symm⟩
    · rintro ⟨row, hrow, hmatch, rfl⟩
      obtain ⟨o, rfl⟩ := mem_opcodeMap.mp hrow
      exact encode_instrFromBits hmatch
  · intro w a ha b hb haw hbw
    obtain ⟨o, rfl⟩ := mem_opcodeMap.mp ha
    obtain ⟨p, rfl⟩ := mem_opcodeMap.mp hb
    have hinstr : instrFromBits o w = instrFromBits p w :=
      encode_injective ((encode_instrFromBits haw).trans (encode_instrFromBits hbw).symm)
    have hop : o = p := by simpa using congrArg Instr.opcode hinstr
    rw [hop]

/-- Settles O6: the decoder run on each word. -/
theorem specWordsDecode : Obligations.SpecWordsDecode := ⟨rfl, rfl, rfl, rfl, rfl, rfl⟩

end Sys2Proof.Proofs
end

section
/-! Records and sequences: when a record is an instruction (R72 to R75), when a sequence is a program and which slot refuses one that is
not (R89, R212, R213), and the operand roles of each opcode (R76 to R78). -/

namespace Sys2Proof.Proofs

open Sys2Proof.Machine Sys2Proof.Laws Sys2Proof.Statements

/-! ### A sequence, slot by slot (R212, R213) -/

/-- Two sequences whose elements resolve alike resolve alike. -/
theorem resolveFrom_congr {α β : Type} {f : α → Except RecordError Instr} {g : β → Except RecordError Instr} (k : Nat)
    {as : List α} {bs : List β} (h : as.map f = bs.map g) : resolveFrom f k as = resolveFrom g k bs := by
  induction as generalizing k bs with
  | nil =>
    obtain rfl : bs = [] := List.map_eq_nil_iff.mp h.symm
    rfl
  | cons a as ih =>
    cases bs with
    | nil => cases h
    | cons b bs =>
      obtain ⟨hab, hrest⟩ := List.cons.inj h
      rw [resolveFrom, resolveFrom, hab, ih (k + 1) hrest]

/-- A sequence within `PROG_MAX` whose elements all resolve is the program of what they resolve to. -/
theorem resolveFrom_of_all_ok {α : Type} {res : α → Except RecordError Instr} {k : Nat} {as : List α} {is : List Instr}
    (h : as.map res = is.map .ok) (hk : k + is.length ≤ Config.progMax) : resolveFrom res k as = .ok is := by
  induction as generalizing k is with
  | nil =>
    obtain rfl : is = [] := List.map_eq_nil_iff.mp h.symm
    rfl
  | cons a as ih =>
    cases is with
    | nil => cases h
    | cons i is =>
      obtain ⟨hai, hrest⟩ := List.cons.inj h
      rw [List.length_cons] at hk
      exact resolveFrom_cons_ok.mpr ⟨by omega, i, is, hai, ih hrest (by omega), rfl⟩

/-- The first element that does not resolve, at a slot below `PROG_MAX`, names the error and its slot. -/
theorem resolveFrom_append_error {α : Type} {res : α → Except RecordError Instr} {k : Nat} {pre post : List α} {a : α}
    {e : RecordError} (hpre : ∀ b ∈ pre, ∃ i, res b = .ok i) (hk : k + pre.length < Config.progMax) (ha : res a = .error e) :
    resolveFrom res k (pre ++ a :: post) = .error (loadErrorAt (k + pre.length) e) := by
  induction pre generalizing k with
  | nil =>
    have hlt : ¬ Config.progMax ≤ k := Nat.not_le_of_lt hk
    simp [resolveFrom, hlt, ha]
  | cons b pre ih =>
    obtain ⟨⟨i, hi⟩, hrest⟩ := List.forall_mem_cons.mp hpre
    rw [List.length_cons] at hk ⊢
    have hlt : ¬ Config.progMax ≤ k := by omega
    rw [List.cons_append, resolveFrom, if_neg hlt, hi, ih hrest (by omega), Nat.add_assoc, Nat.add_comm 1]

/-- A word resolves to what the decoder reads, every illegal word being malformed (R89, R213). -/
theorem resolveWord_eq_mapError (w : Word) : resolveWord w = (decode w).mapError fun _ => .malformedInstruction := by
  cases h : decode w <;> simp [resolveWord, h, Except.mapError]

/-- Every instruction's record resolves to it. -/
theorem resolve_toRecord (i : Instr) : resolve i.toRecord = .ok i := by
  cases i with
  | add rd rs rt => exact (RecordRoundTrip.add rd rs rt).2
  | sub rd rs rt => exact (RecordRoundTrip.sub rd rs rt).2
  | and rd rs rt => exact (RecordRoundTrip.and rd rs rt).2
  | or rd rs rt => exact (RecordRoundTrip.or rd rs rt).2
  | slt rd rs rt => exact (RecordRoundTrip.slt rd rs rt).2
  | addi rt rs imm => exact (RecordRoundTrip.addi rt rs imm).2
  | slti rt rs imm => exact (RecordRoundTrip.slti rt rs imm).2
  | lw rt rs imm => exact (RecordRoundTrip.lw rt rs imm).2
  | sw rt rs imm => exact (RecordRoundTrip.sw rt rs imm).2
  | nop => exact RecordRoundTrip.nop.2

/-- Legal words resolve to the instructions they decode to. -/
theorem map_resolveWord_eq {ws : List Word} {is : List Instr} (h : ws.map decode = is.map Except.ok) :
    ws.map resolveWord = is.map Except.ok := by
  calc ws.map resolveWord = (ws.map decode).map (Except.mapError fun _ => .malformedInstruction) := by
        rw [List.map_map]
        exact List.map_congr_left fun w _ => resolveWord_eq_mapError w
    _ = is.map .ok := by
        rw [h, List.map_map]
        rfl

/-- The records of a sequence of instructions resolve to those instructions. -/
theorem map_resolve_recordsOf (is : List Instr) : (recordsOf is).map resolve = is.map .ok := by
  rw [recordsOf, List.map_map]
  exact List.map_congr_left fun i _ => resolve_toRecord i

/-- Settles O10: words and records resolve alike slot by slot; within `PROG_MAX` the encodings resolve to the program they encode. -/
theorem loadingWordsIsLoadingTheirRecords : Obligations.LoadingWordsIsLoadingTheirRecords := by
  constructor
  · intro c ws is s h
    have hsame : resolveWords ws = resolveRecords (recordsOf is) :=
      resolveFrom_congr 0 ((map_resolveWord_eq h).trans (map_resolve_recordsOf is).symm)
    simp only [hostCallWith, hsame]
  · intro c is s hlen
    have hdecode : (is.map encode).map decode = is.map .ok := by
      rw [List.map_map]
      exact List.map_congr_left fun i _ => decodeOfEncodeIsTheInstruction i
    have hprog : resolveWords (is.map encode) = .ok is :=
      resolveFrom_of_all_ok (map_resolveWord_eq hdecode) (by rwa [Nat.zero_add])
    simp only [hostCallWith, hprog, hostLoad]

/-! ### Illegal words (R83, R89) -/

/-- A word is illegal exactly when it is the encoding of no instruction. -/
theorem exists_decode_error_iff (w : Word) : (∃ e, decode w = .error e) ↔ ∀ i, encode i ≠ w := by
  cases h : decode w with
  | error e =>
    have hno : ∀ i, encode i ≠ w := fun i hi => nomatch h.symm.trans (decode_eq_ok_iff.mpr hi)
    simpa using hno
  | ok i => simpa using ⟨i, decode_eq_ok_iff.mp h⟩

/-- The words of the ten instructions: format R with one of five function codes, format I with one of four opcodes, or 0 (R81 to R84). -/
theorem encode_cases (i : Instr) :
    (∃ funct ∈ [0x20#6, 0x22#6, 0x24#6, 0x25#6, 0x2A#6], ∃ rd rs rt, encode i = encodeR funct rd rs rt) ∨
    (∃ opcode6 ∈ [0x08#6, 0x0A#6, 0x23#6, 0x2B#6], ∃ rt rs imm, encode i = encodeI opcode6 rt rs imm) ∨
    (i = .nop ∧ encode i = 0#32) := by
  cases i with
  | add | sub | and | or | slt => exact .inl ⟨_, by decide, _, _, _, rfl⟩
  | addi | slti | lw | sw => exact .inr (.inl ⟨_, by decide, _, _, _, rfl⟩)
  | nop => exact .inr (.inr ⟨rfl, rfl⟩)

/-- A legal word has one of the five legal values of `opcode6` (R84). -/
theorem encode_opcode6 (i : Instr) : (encode i).toNat / 2 ^ 26 ∈ [0x00, 0x08, 0x0A, 0x23, 0x2B] := by
  obtain ⟨funct, -, rd, rs, rt, h⟩ | ⟨opcode6, hop, rt, rs, imm, h⟩ | ⟨-, h⟩ := encode_cases i
  · have hzero : (encode i).toNat / 2 ^ 26 = 0 := by rw [h, encodeR_toNat]; omega
    exact hzero ▸ List.mem_cons_self
  · have hopcode6 : (encode i).toNat / 2 ^ 26 = opcode6.toNat := by rw [h, encodeI_toNat]; omega
    exact hopcode6 ▸ List.mem_cons_of_mem _ (List.mem_map_of_mem (f := BitVec.toNat) hop)
  · rw [h]
    decide

/-- A legal word with `opcode6 = 0` is the word of `NOP`, or has 0 for `shamt` and a function code below it (R81, R83, R84). -/
theorem encode_shamt_funct {i : Instr} (hop : (encode i).toNat / 2 ^ 26 = 0) :
    encode i = 0#32 ∨ (encode i).toNat % 2 ^ 11 ∈ [0x20, 0x22, 0x24, 0x25, 0x2A] := by
  obtain ⟨funct, hf, rd, rs, rt, h⟩ | ⟨opcode6, hne, rt, rs, imm, h⟩ | ⟨-, h⟩ := encode_cases i
  · right
    have hfunct : (encode i).toNat % 2 ^ 11 = funct.toNat := by rw [h, encodeR_toNat]; omega
    exact hfunct ▸ List.mem_map_of_mem (f := BitVec.toNat) hf
  · have hzero : opcode6.toNat = 0 := by rw [h, encodeI_toNat] at hop; omega
    have hmem := List.mem_map_of_mem (f := BitVec.toNat) hne
    rw [hzero] at hmem
    exact absurd hmem (by decide)
  · exact .inl h

/-- Settles O5: the illegal words are those that are no encoding; each class is one the encodings avoid; the loader names the first of
them. -/
theorem illegalWordsAreRefusedByLoad : Obligations.IllegalWordsAreRefusedByLoad := by
  refine ⟨fun w => ?_, fun w hop => ?_, fun w hop hfunct => ?_, fun w hop hshamt => ?_, fun w hop hlow hne => ?_, fun w => ?_,
    fun c pre post w e s hpre hlen hw => ?_⟩
  · rw [exists_decode_error_iff]
    constructor
    · intro h row hrow hmatch
      obtain ⟨o, rfl⟩ := mem_opcodeMap.mp hrow
      exact h _ (encode_instrFromBits hmatch)
    · rintro h i rfl
      exact h _ (mem_opcodeMap.mpr ⟨_, rfl⟩) (rowOf_matches_encode i)
  · rw [exists_decode_error_iff]
    rintro i rfl
    exact hop (encode_opcode6 i)
  · rw [exists_decode_error_iff]
    rintro i rfl
    obtain h | h := encode_shamt_funct hop
    · simp [h] at hfunct
    · simp only [List.mem_cons, List.not_mem_nil, or_false] at h hfunct
      omega
  · rw [exists_decode_error_iff]
    rintro i rfl
    obtain h | h := encode_shamt_funct hop
    · simp [h] at hshamt
    · simp only [List.mem_cons, List.not_mem_nil, or_false] at h
      omega
  · rw [exists_decode_error_iff]
    rintro i rfl
    obtain h | h := encode_shamt_funct hop
    · exact hne h
    · rw [hlow] at h
      exact absurd h (by decide)
  · rw [decode_eq_ok_iff]
    exact eq_comm
  · have hlegal : ∀ v ∈ pre, ∃ i, resolveWord v = .ok i := by
      intro v hv
      obtain ⟨i, hi⟩ := hpre v hv
      exact ⟨i, by rw [resolveWord_eq_mapError, hi]; rfl⟩
    have hillegal : resolveWord w = .error .malformedInstruction := by
      rw [resolveWord_eq_mapError, hw]
      rfl
    have herror : resolveWords (pre ++ w :: post) = .error (.malformedInstruction pre.length) := by
      simpa [resolveWords, loadErrorAt] using resolveFrom_append_error (k := 0) (post := post) hlegal (by omega) hillegal
    simp only [hostCallWith, herror, hostLoad]

/-! ### Records (R72 to R75) -/

/-- A present register field in range is a register's index (R73). -/
theorem exists_reg_of_field {f : Option Int} (hf : f.isSome = true) (hr : regFieldInRange f = true) :
    ∃ r : Reg, f = some (r.val : Int) := by
  obtain ⟨n, rfl⟩ := Option.isSome_iff_exists.mp hf
  obtain ⟨h0, h32⟩ : 0 ≤ n ∧ n < 32 := of_decide_eq_true hr
  exact ⟨⟨n.toNat, by omega⟩, congrArg some (Int.toNat_of_nonneg h0).symm⟩

/-- A present immediate in range is the signed reading of an immediate field (R74). -/
theorem exists_imm_of_field {r : Record} (hfmt : r.opcode.format = .i) (hf : r.imm.isSome = true) (hr : r.immInRange = true) :
    ∃ imm : Imm, r.imm = some imm.toInt := by
  obtain ⟨n, hn⟩ := Option.isSome_iff_exists.mp hf
  simp only [Record.immInRange, hfmt, hn, decide_eq_true_eq] at hr
  exact ⟨BitVec.ofInt 16 n, by rw [hn, BitVec.toInt_ofInt_eq_self (by decide) hr.1 hr.2]⟩

/-- A well-formed record of format R has three registers (R72, R73). -/
theorem fields_of_wellFormed_r {r : Record} (h : r.WellFormed) (hfmt : r.opcode.format = .r) :
    ∃ rd rs rt : Reg, r.rd = some (rd.val : Int) ∧ r.rs = some (rs.val : Int) ∧ r.rt = some (rt.val : Int) := by
  obtain ⟨hp, hreg, -⟩ := h
  simp only [Record.fieldsPresent, hfmt, Bool.and_eq_true] at hp
  simp only [Record.registersInRange, Bool.and_eq_true] at hreg
  obtain ⟨⟨hprd, hprs⟩, hprt⟩ := hp
  obtain ⟨⟨hrrd, hrrs⟩, hrrt⟩ := hreg
  obtain ⟨rd, hrd⟩ := exists_reg_of_field hprd hrrd
  obtain ⟨rs, hrs⟩ := exists_reg_of_field hprs hrrs
  obtain ⟨rt, hrt⟩ := exists_reg_of_field hprt hrrt
  exact ⟨rd, rs, rt, hrd, hrs, hrt⟩

/-- A well-formed record of format I has two registers and an immediate (R72 to R74). -/
theorem fields_of_wellFormed_i {r : Record} (h : r.WellFormed) (hfmt : r.opcode.format = .i) :
    ∃ (rt rs : Reg) (imm : Imm), r.rt = some (rt.val : Int) ∧ r.rs = some (rs.val : Int) ∧ r.imm = some imm.toInt := by
  obtain ⟨hp, hreg, himm⟩ := h
  simp only [Record.fieldsPresent, hfmt, Bool.and_eq_true] at hp
  simp only [Record.registersInRange, Bool.and_eq_true] at hreg
  obtain ⟨⟨hprt, hprs⟩, hpimm⟩ := hp
  obtain ⟨⟨-, hrrs⟩, hrrt⟩ := hreg
  obtain ⟨rt, hrt⟩ := exists_reg_of_field hprt hrrt
  obtain ⟨rs, hrs⟩ := exists_reg_of_field hprs hrrs
  obtain ⟨imm, himm⟩ := exists_imm_of_field hfmt hpimm himm
  exact ⟨rt, rs, imm, hrt, hrs, himm⟩

/-- The instruction has the record's opcode, and each of its operands is the record's field of that name. -/
def ReadsAs (r : Record) (i : Instr) : Prop :=
  i.opcode = r.opcode ∧
    (∀ n, i.toRecord.rd = some n → r.rd = some n) ∧ (∀ n, i.toRecord.rs = some n → r.rs = some n) ∧
    (∀ n, i.toRecord.rt = some n → r.rt = some n) ∧ (∀ n, i.toRecord.imm = some n → r.imm = some n)

/-- A well-formed record reads as the instruction `load` makes of it. -/
theorem readsAs_instrOfRecord {r : Record} (h : r.WellFormed) : ReadsAs r (instrOfRecord r) := by
  cases hop : r.opcode with
  | add | sub | and | or | slt =>
    obtain ⟨rd, rs, rt, hrd, hrs, hrt⟩ := fields_of_wellFormed_r h (by rw [hop]; rfl)
    simp [ReadsAs, instrOfRecord, hop, hrd, hrs, hrt, Instr.opcode, Instr.toRecord]
  | addi | slti | lw | sw =>
    obtain ⟨rt, rs, imm, hrt, hrs, himm⟩ := fields_of_wellFormed_i h (by rw [hop]; rfl)
    simp [ReadsAs, instrOfRecord, hop, hrt, hrs, himm, Instr.opcode, Instr.toRecord]
  | nop => simp [ReadsAs, instrOfRecord, hop, Instr.opcode, Instr.toRecord]

/-- A record reads as no other instruction than the one `load` makes of it. -/
theorem instrOfRecord_of_readsAs {r : Record} {i : Instr} (h : ReadsAs r i) : instrOfRecord r = i := by
  obtain ⟨hop, hrd, hrs, hrt, himm⟩ := h
  cases i with
  | add | sub | and | or | slt => simp [instrOfRecord, ← hop, Instr.opcode, hrd _ rfl, hrs _ rfl, hrt _ rfl]
  | addi | slti | lw | sw => simp [instrOfRecord, ← hop, Instr.opcode, hrt _ rfl, hrs _ rfl, himm _ rfl]
  | nop => simp [instrOfRecord, ← hop, Instr.opcode]

/-- A record resolves exactly when it is well formed, and then to the instruction `load` makes of it (R75). -/
theorem resolve_eq_ok_iff {r : Record} {i : Instr} : resolve r = .ok i ↔ r.WellFormed ∧ instrOfRecord r = i := by
  unfold resolve
  split_ifs with ha hb hc
  · simp [Record.WellFormed, ha]
  · simp [Record.WellFormed, hb]
  · simp [Record.WellFormed, hc]
  · simp only [Bool.not_eq_false] at ha hb hc
    simp [Record.WellFormed, ha, hb, hc]

/-- Settles O7: a record resolves to what it reads as, and the checks of R75 are made in their order. -/
theorem recordResolvesOrNamesItsFirstDefect : Obligations.RecordResolvesOrNamesItsFirstDefect := by
  refine ⟨fun r i => ?_, fun r ha => ?_, fun r ha hb => ?_, fun r ha hb hc => ?_⟩
  · rw [resolve_eq_ok_iff]
    constructor
    · rintro ⟨hwf, rfl⟩
      exact ⟨hwf, readsAs_instrOfRecord hwf⟩
    · rintro ⟨hwf, hreads⟩
      exact ⟨hwf, instrOfRecord_of_readsAs hreads⟩
  · simp [resolve, ha]
  · simp [resolve, ha, hb]
  · simp [resolve, ha, hb, hc]

/-! ### Operand roles (R76 to R78) -/

/-- Settles O18: the tables of `dest` and `srcs`, opcode by opcode, and `writes_reg` from the first. -/
theorem operandRolesPerOpcode : Obligations.OperandRolesPerOpcode := by
  refine ⟨fun rd rs rt i hi => ?_, fun rt rs imm i hi => ?_, fun rt rs imm => ⟨rfl, rfl, rfl⟩, rfl, rfl, rfl⟩
  · simp only [List.mem_cons, List.not_mem_nil, or_false] at hi
    obtain rfl | rfl | rfl | rfl | rfl := hi <;> exact ⟨rfl, rfl, rfl⟩
  · simp only [List.mem_cons, List.not_mem_nil, or_false] at hi
    obtain rfl | rfl | rfl := hi <;> exact ⟨rfl, rfl, rfl⟩

end Sys2Proof.Proofs
end

section
/-! The load-use hazard (41_hazard_detector.md): what the detector looks for, what a cycle with and without a stall does in Decode and
Fetch, and how the loaded word reaches the held consumer. -/

namespace Sys2Proof.Proofs

open Sys2Proof.Machine Sys2Proof.Laws

/-! ### The detector (R101) -/

/-- A `Bubble` in Execute never stalls (R101). -/
@[simp] theorem hazard_bubble_right (l : Latch) : hazard l .bubble = .proceed := by
  cases l <;> rfl

/-- The detector stalls exactly on two records in the load-use condition. -/
theorem hazard_eq_stall {a b : Latch} :
    hazard a b = .stall ↔ ∃ c p, a = .inFlight c ∧ b = .inFlight p ∧ loadUse p.instr c.instr = true := by
  cases a with
  | bubble => simp
  | inFlight c =>
    cases b with
    | bubble => simp
    | inFlight p => simp [hazard_inFlight]

/-- The stall flag is the detector's decision on the pre-cycle latches (R46). -/
theorem stallFlag_eq_true {s : State} : stallFlag s = true ↔ hazard s.ifId s.idEx = .stall := decide_eq_true_iff

/-- Settles O17: the load-use condition, with the `LW` written out. -/
theorem hazardIsExactlyLoadUse : Obligations.HazardIsExactlyLoadUse := by
  intro a b
  simp only [hazard_eq_stall, loadUse_iff, loadDest_eq_some]
  constructor
  · rintro ⟨c, p, ha, hb, rt, ⟨rs, imm, hi⟩, hrt, hmem⟩
    exact ⟨c, p, rt, rs, imm, ha, hb, hi, hrt, hmem⟩
  · rintro ⟨c, p, rt, rs, imm, ha, hb, hi, hrt, hmem⟩
    exact ⟨c, p, ha, hb, rt, ⟨rs, imm, hi⟩, hrt, hmem⟩

/-! ### Decode and Fetch in a step, with and without a stall -/

/-- A stall makes Decode supply a `Bubble` and Fetch hold (R106). -/
theorem step_of_stall {s t : State} (h : step s = .next t) (hz : hazard s.ifId s.idEx = .stall) :
    t.idEx = .bubble ∧ t.ifId = s.ifId ∧ t.pc = s.pc := by
  obtain ⟨-, x', n', m', mw', em', -, -, -, rfl⟩ := step_next.mp h
  simp [decodeStage, fetchStage, hz]

/-- Without a stall `IF_ID` passes to `ID_EX` (R147). -/
theorem step_idEx_of_proceed {s t : State} (h : step s = .next t) (hz : hazard s.ifId s.idEx = .proceed) : t.idEx = s.ifId := by
  obtain ⟨-, x', n', m', mw', em', -, -, -, rfl⟩ := step_next.mp h
  simp [decodeStage, hz]

/-- Without a stall slot `PC` is fetched (R150). -/
theorem step_fetch_of_proceed {s t : State} (h : step s = .next t) (hz : hazard s.ifId s.idEx = .proceed) :
    (∀ i, s.prog[s.pc]? = some i → t.ifId = .inFlight (.fetched i) ∧ t.pc = s.pc + 1) ∧
    (s.prog[s.pc]? = none → t.ifId = .bubble ∧ t.pc = s.pc) := by
  obtain ⟨-, x', n', m', mw', em', -, -, -, rfl⟩ := step_next.mp h
  constructor
  · intro i hi
    simp [fetchStage, hz, hi]
  · intro hnone
    simp [fetchStage, hz, hnone]

/-- What Execute makes of `ID_EX` does not depend on `IF_ID`. -/
theorem executeStage_of_ifId (x : Regs) (s : State) (l : Latch) :
    executeStage x { s with ifId := l } = executeStage x s := rfl

/-- Settles O19: Decode and Fetch by `step_of_stall`; the stages of the older instructions do not read `IF_ID`, so that they answer the same
in the cycle without the consumer. -/
theorem stallInsertsOneBubbleAndHoldsFetch : Obligations.StallInsertsOneBubbleAndHoldsFetch := by
  intro s t hz h
  obtain ⟨hid, hif, hpc⟩ := step_of_stall h hz
  obtain ⟨c, p, -, hp, -⟩ := hazard_eq_stall.mp hz
  obtain ⟨r, hfill, hr⟩ := step_exMem_of_inFlight h hp
  refine ⟨hid, hif, hpc, ⟨p, r, hp, hr, fillOf_instr hfill⟩, ?_⟩
  obtain ⟨hf, x', n', m', mw', em', hwb, hmem, hex, rfl⟩ := step_next.mp h
  have hex' := (executeStage_of_ifId x' s .bubble).trans hex
  exact ⟨_, step_next.mpr ⟨hf, x', n', m', mw', em', hwb, hmem, hex', rfl⟩, rfl, rfl, rfl, rfl, rfl⟩

/-- Settles O20: Decode and Fetch without a stall; slot `PC` is absent exactly past the end of the program. -/
theorem proceedPassesDecodeAndFetches : Obligations.ProceedPassesDecodeAndFetches := by
  intro s t hz h
  obtain ⟨hslot, hend⟩ := step_fetch_of_proceed h hz
  exact ⟨step_idEx_of_proceed h hz, hslot, fun hpc => hend (List.getElem?_eq_none hpc)⟩

/-- Settles O21: after a stall `ID_EX` is a `Bubble`, so that the detector lets the held consumer pass. -/
theorem stallLastsOneCycle : Obligations.StallLastsOneCycle := by
  intro s t hs h
  obtain ⟨hid, hif, -⟩ := step_of_stall h (stallFlag_eq_true.mp hs)
  have hz : hazard t.ifId t.idEx = .proceed := by rw [hid, hazard_bubble_right]
  refine ⟨by simp [stallFlag, hz], fun u hu => ?_⟩
  rw [step_idEx_of_proceed hu hz, hif]

/-! ### The loaded word on its way to the consumer (R109) -/

/-- The instructions that load in Memory are those with a load destination (R104, R139). -/
theorem memAccess_eq_load {i : Instr} : memAccess i = .load ↔ ∃ r, loadDest i = some r := by
  cases i <;> simp [memAccess, loadDest]

/-- An `LW` in Execute leaves it with an address (R146). -/
theorem step_exMem_of_load {s t : State} (h : step s = .next t) {p : InFlight} {rt : Reg} (hp : s.idEx = .inFlight p)
    (hl : loadDest p.instr = some rt) : ∃ a, t.exMem = .inFlight { p with address := some a } := by
  obtain ⟨r, hfill, hr⟩ := step_exMem_of_inFlight h hp
  obtain ⟨rs, imm, hi⟩ := loadDest_eq_some.mp hl
  rw [hi] at hfill
  simp only [fillOf, bind_eq_next, Host.Outcome.next.injEq] at hfill
  obtain ⟨a, -, rfl⟩ := hfill
  exact ⟨_, hr⟩

/-- An `LW` in Memory reads its word from the pre-cycle data memory (R141). -/
theorem step_memWb_of_load {s t : State} (h : step s = .next t) {p : InFlight} {a : Word} (hp : s.exMem = .inFlight p)
    (hl : memAccess p.instr = .load) (ha : p.address = some a) :
    t.memWb = .inFlight { p with result := some (memRead s.dmem a) } := by
  obtain ⟨-, x', n', m', mw', em', -, hmem, -, rfl⟩ := step_next.mp h
  simp only [memoryStage, hp, hl, loadInMemory, ha, checked_next, Host.Outcome.next.injEq, Prod.mk.injEq] at hmem
  obtain ⟨-, -, rfl⟩ := hmem
  simp [ha]

/-- Write-Back commits the result of a record with a non-zero destination (R136). -/
theorem step_x_of_result {s t : State} (h : step s = .next t) {q : InFlight} {d : Reg} {w : Word} (hq : s.memWb = .inFlight q)
    (hd : dest q.instr = some d) (hd0 : d ≠ 0) (hw : q.result = some w) : t.x = writeReg s.x d w := by
  obtain ⟨-, x', n', m', mw', em', hwb, -, -, rfl⟩ := step_next.mp h
  simp only [writeBackStage, hq, commit, hd, hd0, hw, if_false, bind_next, Host.Outcome.next.injEq, Prod.mk.injEq] at hwb
  exact hwb.1.symm

/-- With a `Bubble` in `EX_MEM`, a producer in `MEM_WB` is the forwarding source (R116, R119). -/
theorem forward_of_memWb {x : Regs} {q : InFlight} {r : Reg} {w : Word} (hr : r ≠ 0) (hd : dest q.instr = some r)
    (hw : q.result = some w) : forward x .bubble (.inFlight q) r = .next w := by
  simp [forward, hr, producerOf, hd, forwardedFromMemWb, hw]

/-- Settles O22: the `LW` goes through `EX_MEM` to `MEM_WB` with a `Bubble` behind it, and the consumer behind the `Bubble`. -/
theorem loadedWordIsForwardedFromMemWb : Obligations.LoadedWordIsForwardedFromMemWb := by
  intro s t u p rt hs hp hl h1 h2
  have hz := stallFlag_eq_true.mp hs
  obtain ⟨c, p', -, hp', hu⟩ := hazard_eq_stall.mp hz
  obtain rfl : p' = p := Latch.inFlight.inj (hp'.symm.trans hp)
  obtain ⟨r, hr, hrt, -⟩ := loadUse_iff.mp hu
  obtain rfl : r = rt := Option.some.inj (hr.symm.trans hl)
  have hd := dest_of_loadDest hl
  obtain ⟨hid, -, -⟩ := step_of_stall h1 hz
  obtain ⟨a, hem⟩ := step_exMem_of_load h1 hp hl
  have hmw := step_memWb_of_load h2 hem (memAccess_eq_load.mpr ⟨r, hl⟩) rfl
  have hem2 := step_exMem_of_bubble h2 hid
  have hcons := (stallLastsOneCycle s t hs h1).2 u h2
  refine ⟨a, _, hem, hmw, rfl, rfl, hem2, hcons, fun x => ?_, fun v h3 => ?_⟩
  · rw [hem2, hmw]
    exact forward_of_memWb hrt hd rfl
  · rw [step_x_of_result h3 hmw hd hrt rfl, readReg_writeReg, if_pos ⟨rfl, hrt⟩]
    rfl

end Sys2Proof.Proofs
end

section
/-! Progress (R111, R126, R154): in a state of the invariant every stage has the fields it needs. Write-Back and Execute always answer, and
Memory answers or raises the error of an address. -/

namespace Sys2Proof.Proofs

open Sys2Proof.Machine Sys2Proof.Laws

/-! ### The fields the stages read are there (R34) -/

/-- A record that left Execute has the result of its destination, unless it is an `LW`; the address of its access; the word to store. -/
theorem exists_fields_of_shapeExecuted {p : InFlight} (h : p.shapeExecuted = true) :
    (∀ d, dest p.instr = some d → loadDest p.instr = none → ∃ v, p.result = some v) ∧
    (memAccess p.instr ≠ .pass → ∃ a, p.address = some a) ∧
    (memAccess p.instr = .store → ∃ v, p.storeValue = some v) := by
  unfold InFlight.shapeExecuted at h
  simp only [← Option.isSome_iff_exists]
  cases hi : p.instr <;> simp_all [dest, loadDest, memAccess, Instr.opcode]

/-- A record that left Memory has the result of its destination. -/
theorem exists_result_of_shapeAccessed {q : InFlight} {d : Reg} (h : q.shapeAccessed = true) (hd : dest q.instr = some d) :
    ∃ v, q.result = some v := by
  cases hl : loadDest q.instr with
  | some r =>
    obtain ⟨rs, imm, hi⟩ := loadDest_eq_some.mp hl
    simp only [InFlight.shapeAccessed, hi, Instr.opcode, Bool.and_eq_true] at h
    obtain ⟨⟨hres, -⟩, -⟩ := h
    exact Option.isSome_iff_exists.mp hres
  | none =>
    have hm : memAccess q.instr ≠ .load := by simp [memAccess_eq_load, hl]
    obtain ⟨hres, -, -⟩ := exists_fields_of_shapeExecuted (shapeAccessed_of_not_load hm ▸ h)
    exact hres d hd hl

/-! ### The stages answer -/

/-- The register write of a record that has the fields of `MEM_WB` answers. -/
theorem commit_answers {q : InFlight} (h : q.shapeAccessed = true) (x : Regs) : ∃ x', commit q x = .next x' := by
  unfold commit
  cases hd : dest q.instr with
  | none => exact ⟨x, rfl⟩
  | some d =>
    obtain ⟨w, hw⟩ := exists_result_of_shapeAccessed h hd
    by_cases hd0 : d = 0
    · exact ⟨x, by simp [hd0]⟩
    · exact ⟨writeReg x d w, by simp [hd0, hw]⟩

/-- Write-Back answers when a record in `MEM_WB` has its fields. -/
theorem writeBackStage_answers {s : State} (h : s.memWb.holds InFlight.shapeAccessed = true) :
    ∃ x' n', writeBackStage s = .next (x', n') := by
  cases hq : s.memWb with
  | bubble => exact ⟨s.x, s.retired, by simp [writeBackStage, hq]⟩
  | inFlight q =>
    rw [hq] at h
    obtain ⟨x', hx'⟩ := commit_answers h s.x
    exact ⟨x', s.retired + retireCount q, by simp [writeBackStage, hq, hx']⟩

/-- A checked access to what answers is never refused. -/
theorem checked_next_ne_refused {α : Type} (a : Word) (b : α) (q : Refusal) : checked a (.next b) ≠ .refused q := by
  rw [checked_eq]
  cases addressFault a <;> simp

/-- Memory is not refused when a record in `EX_MEM` has its fields. -/
theorem memoryStage_ne_refused {s : State} (h : s.exMem.holds InFlight.shapeExecuted = true) (q : Refusal) :
    memoryStage s ≠ .refused q := by
  cases hp : s.exMem with
  | bubble => simp [memoryStage, hp]
  | inFlight p =>
    rw [hp] at h
    obtain ⟨-, haddr, hval⟩ := exists_fields_of_shapeExecuted h
    cases hm : memAccess p.instr with
    | pass => simp [memoryStage, hp, hm]
    | load =>
      obtain ⟨a, ha⟩ := haddr (by simp [hm])
      simpa only [memoryStage, hp, hm, loadInMemory, ha] using checked_next_ne_refused a _ q
    | store =>
      obtain ⟨a, ha⟩ := haddr (by simp [hm])
      obtain ⟨v, hv⟩ := hval hm
      simpa only [memoryStage, hp, hm, storeInMemory, ha, hv] using checked_next_ne_refused a _ q

/-- The pending fault is the error Memory raises. -/
theorem pendingFault_eq_some {s : State} {f : Fault} : pendingFault s = some f ↔ memoryStage s = .fault f := by
  unfold pendingFault
  cases memoryStage s <;> simp

/-- With no fault pending Memory answers, when a record in `EX_MEM` has its fields. -/
theorem memoryStage_answers {s : State} (h : s.exMem.holds InFlight.shapeExecuted = true) (hp : pendingFault s = none) :
    ∃ m' mw', memoryStage s = .next (m', mw') := by
  cases hm : memoryStage s with
  | next r => exact ⟨r.1, r.2, rfl⟩
  | fault f => simp [pendingFault_eq_some.mpr hm] at hp
  | refused q => exact absurd hm (memoryStage_ne_refused h q)

/-- The forwarding unit answers when the records in `EX_MEM` and `MEM_WB` have their fields and no `LW` in `EX_MEM` is the producer
(R111, R123). -/
theorem forward_answers {em mw : Latch} {r : Reg} (x : Regs) (hem : em.holds InFlight.shapeExecuted = true)
    (hmw : mw.holds InFlight.shapeAccessed = true) (hl : ∀ p, em = .inFlight p → r ≠ 0 → loadDest p.instr ≠ some r) :
    ∃ v, forward x em mw r = .next v := by
  unfold forward
  by_cases hr : r = 0
  · exact ⟨0#32, by simp [hr]⟩
  rw [if_neg hr]
  cases hp : producerOf em r with
  | some p =>
    obtain ⟨rfl, hd⟩ := producerOf_eq_some.mp hp
    have hnone : loadDest p.instr = none := by
      cases hld : loadDest p.instr with
      | none => rfl
      | some r' =>
        obtain rfl : r' = r := Option.some.inj ((dest_of_loadDest hld).symm.trans hd)
        exact absurd hld (hl p rfl hr)
    obtain ⟨hres, -, -⟩ := exists_fields_of_shapeExecuted hem
    obtain ⟨v, hv⟩ := hres r hd hnone
    exact ⟨v, by simp [forwardedFromExMem, hv]⟩
  | none =>
    cases hq : producerOf mw r with
    | none => exact ⟨_, rfl⟩
    | some q =>
      obtain ⟨rfl, hd⟩ := producerOf_eq_some.mp hq
      obtain ⟨w, hw⟩ := exists_result_of_shapeAccessed hmw hd
      exact ⟨w, by simp [forwardedFromMemWb, hw]⟩

/-- Execute fills in its fields when every source resolves. -/
theorem fillOf_answers {i : Instr} {x : Regs} {s : State} (r : InFlight) (h : ∀ k ∈ srcs i, ∃ v, operand x s k = .next v) :
    ∃ r', fillOf i x s r = .next r' := by
  cases i with
  | add rd rs rt | sub rd rs rt | and rd rs rt | or rd rs rt | slt rd rs rt | sw rt rs imm =>
    obtain ⟨a, ha⟩ := h rs (by simp [srcs])
    obtain ⟨b, hb⟩ := h rt (by simp [srcs])
    simp [fillOf, ha, hb]
  | addi rt rs imm | slti rt rs imm | lw rt rs imm =>
    obtain ⟨a, ha⟩ := h rs (by simp [srcs])
    simp [fillOf, ha]
  | nop => exact ⟨r, rfl⟩

/-- R111 for one source of the instruction in Execute: no `LW` in `EX_MEM` is to load it. -/
theorem loadDest_ne_of_interlocked {s : State} (h : s.interlocked = true) {p c : InFlight} (hp : s.exMem = .inFlight p)
    (hc : s.idEx = .inFlight c) {r : Reg} (hr : r ∈ srcs c.instr) (hr0 : r ≠ 0) : loadDest p.instr ≠ some r := by
  intro hl
  have hu : loadUse p.instr c.instr = true := loadUse_iff.mpr ⟨r, hl, hr0, hr⟩
  simp [State.interlocked, hp, hc, hu] at h

/-- Execute answers in every state of the invariant. -/
theorem executeStage_answers {s : State} (hs : s.Inv) (x : Regs) : ∃ em', executeStage x s = .next em' := by
  cases hid : s.idEx with
  | bubble => exact ⟨_, executeStage_of_bubble hid⟩
  | inFlight c =>
    have hsrcs : ∀ k ∈ srcs c.instr, ∃ v, operand x s k = .next v := fun k hk =>
      forward_answers x hs.exMemShape hs.memWbShape fun p hp => loadDest_ne_of_interlocked hs.interlocked hp hid hk
    obtain ⟨r', hr'⟩ := fillOf_answers c hsrcs
    exact ⟨.inFlight r', (executeStage_of_inFlight hid).mpr ⟨r', hr', rfl⟩⟩

/-- A step ends with the error of its Memory step once Write-Back answers (R140, R244). -/
theorem step_of_memoryStage_fault {s : State} {x' : Regs} {n' : Nat} {f : Fault} (hf : s.fault = none)
    (hwb : writeBackStage s = .next (x', n')) (hm : memoryStage s = .fault f) : step s = .fault f := by
  rw [step_eq_cycleWith]
  simp [cycleWith, hf, hwb, hm]

/-- Settles O25: with no error pending all three stages answer, and a pending one ends the step. -/
theorem unfaultedStepIsNeverRefused : Obligations.UnfaultedStepIsNeverRefused := by
  intro s hs hf
  obtain ⟨x', n', hwb⟩ := writeBackStage_answers hs.memWbShape
  refine ⟨fun hp => ?_, fun f hp => step_of_memoryStage_fault hf hwb (pendingFault_eq_some.mp hp)⟩
  obtain ⟨m', mw', hmem⟩ := memoryStage_answers hs.exMemShape hp
  obtain ⟨em', hex⟩ := executeStage_answers hs x'
  exact ⟨_, step_next.mpr ⟨hf, x', n', m', mw', em', hwb, hmem, hex, rfl⟩⟩

end Sys2Proof.Proofs
end

section
/-! The forwarding unit (42_forwarding_unit.md): which of its four sources it takes (R116, R117), and why it does not matter whether the
register file it reads is the one before or after this cycle's Write-Back (R121). -/

namespace Sys2Proof.Proofs

open Sys2Proof.Machine Sys2Proof.Laws

/-! ### The four sources, highest priority first (R116) -/

/-- A producer in `EX_MEM` with a result is the forwarding source, whatever `MEM_WB` holds (R118, R120). -/
theorem forward_of_producer_exMem {x : Regs} {em mw : Latch} {r : Reg} {p : InFlight} {v : Word} (hr : r ≠ 0)
    (hp : producerOf em r = some p) (hv : p.result = some v) : forward x em mw r = .next v := by
  simp [forward, hr, hp, forwardedFromExMem, hv]

/-- With no producer in `EX_MEM`, one in `MEM_WB` with a result is the forwarding source (R119). -/
theorem forward_of_producer_memWb {x : Regs} {em mw : Latch} {r : Reg} {q : InFlight} {w : Word} (hr : r ≠ 0)
    (hp : producerOf em r = none) (hq : producerOf mw r = some q) (hw : q.result = some w) : forward x em mw r = .next w := by
  simp [forward, hr, hp, hq, forwardedFromMemWb, hw]

/-- With no producer in flight, the register file is the forwarding source. -/
theorem forward_of_no_producer {x : Regs} {em mw : Latch} {r : Reg} (hr : r ≠ 0) (hp : producerOf em r = none)
    (hq : producerOf mw r = none) : forward x em mw r = .next (readReg x r) := by
  simp [forward, hr, hp, hq]

/-- Settles O23: the latches' hypotheses say which of them has a producer of the register, and each source has its rule. -/
theorem forwardingTakesTheYoungestProducer : Obligations.ForwardingTakesTheYoungestProducer := by
  intro x em mw r
  refine ⟨?_, ?_, ?_, ?_⟩
  · rintro rfl
    exact forward_zero x em mw
  · intro p v hr hem hd hv
    exact forward_of_producer_exMem hr (producerOf_eq_some.mpr ⟨hem, hd⟩) hv
  · intro q w hr hem hmw hd hw
    exact forward_of_producer_memWb hr (producerOf_eq_none.mpr hem) (producerOf_eq_some.mpr ⟨hmw, hd⟩) hw
  · intro hr hem hmw
    exact forward_of_no_producer hr (producerOf_eq_none.mpr hem) (producerOf_eq_none.mpr hmw)

/-! ### The register file's timing (R121) -/

/-- The forwarding unit consults the register file only for a register without a producer in `MEM_WB`. -/
theorem forward_congr {x y : Regs} {mw : Latch} {r : Reg} (em : Latch) (h : producerOf mw r = none → readReg x r = readReg y r) :
    forward x em mw r = forward y em mw r := by
  unfold forward
  cases hq : producerOf mw r with
  | some q => rfl
  | none => rw [h hq]

/-- Write-Back commits to no register without a producer in `MEM_WB` (R136). -/
theorem committedReg_ne_of_no_producer {s : State} {r : Reg} (hr : producerOf s.memWb r = none) : committedReg s ≠ some r := by
  intro hc
  obtain ⟨q, hq, hd, -⟩ := committedReg_eq_some.mp hc
  exact producerOf_eq_none.mp hr q hq hd

/-- Settles O24: the register Write-Back writes has a producer in `MEM_WB`, so that the register file is not consulted for it. -/
theorem forwardingCannotSeeWriteBackTiming : Obligations.ForwardingCannotSeeWriteBackTiming := by
  intro s x' n' r h
  exact forward_congr s.exMem fun hr => writeBackStage_frame h (committedReg_ne_of_no_producer hr)

end Sys2Proof.Proofs
end

section
/-! What Execute, Memory and Write-Back make of one instruction, held to its sequential meaning (43_pipeline_engine.md R136 to R146, R157):
an instruction whose operands are the words of a register file is carried by the two later stages to what `seq` makes of it. -/

namespace Sys2Proof.Proofs

open Sys2Proof.Machine Sys2Proof.Laws

/-! ### What a step publishes of Write-Back and Memory -/

/-- The registers and the retire count after a step are those its Write-Back step leaves. -/
theorem step_writeBackStage {s t : State} (h : step s = .next t) : writeBackStage s = .next (t.x, t.retired) := by
  obtain ⟨-, x', n', m', mw', em', hwb, -, -, rfl⟩ := step_next.mp h
  exact hwb

/-- Data memory and `MEM_WB` after a step are those its Memory step leaves. -/
theorem step_memoryStage {s t : State} (h : step s = .next t) : memoryStage s = .next (t.dmem, t.memWb) := by
  obtain ⟨-, x', n', m', mw', em', -, hmem, -, rfl⟩ := step_next.mp h
  exact hmem

/-- A stage step that answers two pairs answers the same pair. -/
theorem next_pair_inj {α β : Type} {r : Result (α × β)} {a a' : α} {b b' : β} (h : r = .next (a, b)) (h' : r = .next (a', b')) :
    a = a' ∧ b = b' :=
  Prod.mk.inj (Host.Outcome.next.inj (h.symm.trans h'))

/-! ### Execute, by the words its operands resolve to -/

/-- Execute reads the state only through the operands of the instruction. -/
theorem fillOf_congr {i : Instr} {x y : Regs} {s u : State} (r : InFlight) (h : ∀ k ∈ srcs i, operand x s k = operand y u k) :
    fillOf i x s r = fillOf i y u r := by
  cases i with
  | add rd rs rt | sub rd rs rt | and rd rs rt | or rd rs rt | slt rd rs rt | sw rt rs imm =>
    have ha := h rs (by simp [srcs])
    have hb := h rt (by simp [srcs])
    simp only [fillOf, ha, hb]
  | addi rt rs imm | slti rt rs imm | lw rt rs imm =>
    have ha := h rs (by simp [srcs])
    simp only [fillOf, ha]
  | nop => rfl

/-- `p` is the record Execute makes of a fresh `i` when every operand is its word in the register file `x`: with nothing in flight. -/
def ExecutedFrom (i : Instr) (x : Regs) (p : InFlight) : Prop := fillOf i x State.reset (.fetched i) = .next p

/-- An executed record is one of its instruction. -/
theorem ExecutedFrom.instr_eq {i : Instr} {x : Regs} {p : InFlight} (h : ExecutedFrom i x p) : p.instr = i :=
  fillOf_instr h

/-- With nothing in flight an operand is its word in the register file. -/
theorem operand_reset (x : Regs) (r : Reg) : operand x State.reset r = .next (readReg x r) := operand_of_bubbles rfl rfl x r

/-- Execute makes the record of the register file `y` when every operand resolves to its word in `y`. -/
theorem executedFrom_of_fillOf {i : Instr} {x y : Regs} {s : State} {p : InFlight} (h : fillOf i x s (.fetched i) = .next p)
    (hy : ∀ k ∈ srcs i, operand x s k = .next (readReg y k)) : ExecutedFrom i y p :=
  (fillOf_congr _ fun k hk => (operand_reset y k).trans (hy k hk).symm).trans h

/-! ### Write-Back of one record -/

/-- A record with a result is committed by the register write, which discards one to register 0 (R22, R136). -/
theorem commit_of_result {q : InFlight} {d : Reg} {w : Word} (x : Regs) (hd : dest q.instr = some d) (hw : q.result = some w) :
    commit q x = .next (writeReg x d w) := by
  by_cases hd0 : d = 0
  · simp [commit, hd, hd0, writeReg]
  · simp [commit, hd, hd0, hw]

/-- A record without a destination commits nothing (R136). -/
theorem commit_of_no_dest {q : InFlight} (x : Regs) (hd : dest q.instr = none) : commit q x = .next x := by
  simp [commit, hd]

/-- A `Bubble` in `MEM_WB` leaves registers and count (R135). -/
theorem writeBackStage_bubble {s : State} (h : s.memWb = .bubble) : writeBackStage s = .next (s.x, s.retired) := by
  simp [writeBackStage, h]

/-- A record in `MEM_WB` is committed and counted (R136, R137). -/
theorem writeBackStage_inFlight {s : State} {q : InFlight} {x' : Regs} (h : s.memWb = .inFlight q)
    (hc : commit q s.x = .next x') : writeBackStage s = .next (x', s.retired + retireCount q) := by
  simp [writeBackStage, h, hc]

/-- The destination of a record in `MEM_WB` reads as its result in the register file Write-Back leaves (R136). -/
theorem readReg_of_writeBack {s : State} {x' : Regs} {n' : Nat} (h : writeBackStage s = .next (x', n')) {q : InFlight} {r : Reg}
    (hq : s.memWb = .inFlight q) (hd : dest q.instr = some r) (hr : r ≠ 0) : q.result = some (readReg x' r) := by
  obtain ⟨hb, -⟩ | ⟨q', hq', -, ⟨hd', -⟩ | ⟨hd', -⟩ | ⟨d, w, hd', -, hw, rfl⟩⟩ := writeBackStage_next h
  · cases hb.symm.trans hq
  all_goals
    obtain rfl : q' = q := Latch.inFlight.inj (hq'.symm.trans hq)
    cases hd'.symm.trans hd
  · exact absurd rfl hr
  · rw [readReg_writeReg, if_pos ⟨rfl, hr⟩, hw]

/-! ### Memory of one record -/

/-- A `Bubble` in `EX_MEM` passes Memory (R139). -/
theorem memoryStage_bubble {s : State} (h : s.exMem = .bubble) : memoryStage s = .next (s.dmem, .bubble) := by
  simp [memoryStage, h]

/-- A `Bubble` in `EX_MEM` becomes one in `MEM_WB`, and data memory stays (R139, R155). -/
theorem step_memory_bubble {s t : State} (h : step s = .next t) (hem : s.exMem = .bubble) :
    t.memWb = .bubble ∧ t.dmem = s.dmem := by
  obtain ⟨hd, hmw⟩ := next_pair_inj (step_memoryStage h) (memoryStage_bubble hem)
  exact ⟨hmw, hd⟩

/-- A record that makes no access passes Memory (R139). -/
theorem memoryStage_pass {s : State} {p : InFlight} (hp : s.exMem = .inFlight p) (hm : memAccess p.instr = .pass) :
    memoryStage s = .next (s.dmem, .inFlight p) := by
  simp [memoryStage, hp, hm]

/-- An `LW` in Memory is a checked read (R140, R141). -/
theorem memoryStage_load {s : State} {p : InFlight} {a : Word} (hp : s.exMem = .inFlight p) (hm : memAccess p.instr = .load)
    (ha : p.address = some a) :
    memoryStage s = checked a (.next (s.dmem, .inFlight { p with result := some (memRead s.dmem a) })) := by
  simp [memoryStage, hp, hm, loadInMemory, ha]

/-- An `SW` in Memory is a checked write (R140, R142). -/
theorem memoryStage_store {s : State} {p : InFlight} {a v : Word} (hp : s.exMem = .inFlight p) (hm : memAccess p.instr = .store)
    (ha : p.address = some a) (hv : p.storeValue = some v) :
    memoryStage s = checked a (.next (memWrite s.dmem a v, .inFlight p)) := by
  simp [memoryStage, hp, hm, storeInMemory, ha, hv]

/-- A checked access answers like the checked step of the sequential meaning: the value it guards, or the error of the address. -/
theorem checked_of_seqChecked {α : Type} (a : Word) (B : Arch) (b : α) :
    (∀ C, seqChecked a B = .ok C → C = B ∧ checked a (.next b) = .next b) ∧
    (∀ f, seqChecked a B = .error f → checked a (.next b : Result α) = .fault f) := by
  unfold seqChecked checked
  cases addressFault a with
  | none => simp
  | some f => simp [raise]

/-! ### One instruction through Memory and Write-Back -/

/-- An ALU instruction executed over a register file has its result, which is what its sequential meaning writes (R144, R145). -/
theorem ExecutedFrom.alu {i : Instr} {A : Arch} {p : InFlight} (h : ExecutedFrom i A.x p) (hm : memAccess i = .pass)
    (hn : i ≠ .nop) :
    ∃ d v, dest p.instr = some d ∧ p.result = some v ∧ seq i A = .ok { A with x := writeReg A.x d v } := by
  cases i with
  | add | sub | and | or | slt | addi | slti =>
    simp only [ExecutedFrom, fillOf, operand_reset, bind_next, Host.Outcome.next.injEq] at h
    subst h
    exact ⟨_, _, rfl, rfl, rfl⟩
  | lw | sw => cases hm
  | nop => exact absurd rfl hn

/-- A memory instruction, and the record it leaves Execute with over a register file (R146). -/
theorem ExecutedFrom.access {i : Instr} {A : Arch} {p : InFlight} (h : ExecutedFrom i A.x p) (hm : memAccess i ≠ .pass) :
    (∃ d a, memAccess p.instr = .load ∧ dest p.instr = some d ∧ p.address = some a ∧
      seq i A = seqChecked a { A with x := writeReg A.x d (memRead A.dmem a) }) ∨
    (∃ a v, memAccess p.instr = .store ∧ dest p.instr = none ∧ p.address = some a ∧ p.storeValue = some v ∧
      seq i A = seqChecked a { A with dmem := memWrite A.dmem a v }) := by
  cases i with
  | lw =>
    simp only [ExecutedFrom, fillOf, operand_reset, bind_next, Host.Outcome.next.injEq] at h
    subst h
    exact .inl ⟨_, _, rfl, rfl, rfl, rfl⟩
  | sw =>
    simp only [ExecutedFrom, fillOf, operand_reset, bind_next, Host.Outcome.next.injEq] at h
    subst h
    exact .inr ⟨_, _, rfl, rfl, rfl, rfl, rfl⟩
  | add | sub | and | or | slt | addi | slti | nop => exact absurd rfl hm

/-- Memory and the commit of an executed record do what the sequential meaning of its instruction does, or raise its error. -/
theorem ExecutedFrom.completes {i : Instr} {A : Arch} {p : InFlight} {s : State} (h : ExecutedFrom i A.x p)
    (hp : s.exMem = .inFlight p) (hd : s.dmem = A.dmem) :
    (∀ B, seq i A = .ok B → ∃ q, memoryStage s = .next (B.dmem, .inFlight q) ∧ q.instr = i ∧ commit q A.x = .next B.x) ∧
    (∀ f, seq i A = .error f → memoryStage s = .fault f) := by
  have hpi := h.instr_eq
  by_cases hm : memAccess i = .pass
  · have hmem := hd ▸ memoryStage_pass hp (hpi ▸ hm)
    by_cases hn : i = .nop
    · subst hn
      constructor
      · rintro B ⟨⟩
        exact ⟨p, hmem, hpi, commit_of_no_dest A.x (hpi ▸ rfl)⟩
      · nofun
    · obtain ⟨d, v, hdest, hres, hseq⟩ := h.alu hm hn
      rw [hseq]
      constructor
      · rintro B ⟨⟩
        exact ⟨p, hmem, hpi, commit_of_result A.x hdest hres⟩
      · nofun
  · obtain ⟨d, a, hl, hdest, ha, hseq⟩ | ⟨a, v, hst, hdest, ha, hv, hseq⟩ := h.access hm
    · obtain ⟨hok, herr⟩ := checked_of_seqChecked a { A with x := writeReg A.x d (memRead A.dmem a) }
        (s.dmem, Latch.inFlight { p with result := some (memRead s.dmem a) })
      rw [memoryStage_load hp hl ha, hseq]
      refine ⟨fun B hB => ?_, herr⟩
      obtain ⟨rfl, hc⟩ := hok B hB
      rw [hc, hd]
      exact ⟨_, rfl, hpi, commit_of_result A.x hdest rfl⟩
    · obtain ⟨hok, herr⟩ := checked_of_seqChecked a { A with dmem := memWrite A.dmem a v }
        (memWrite s.dmem a v, Latch.inFlight p)
      rw [memoryStage_store hp hst ha hv, hseq]
      refine ⟨fun B hB => ?_, herr⟩
      obtain ⟨rfl, hc⟩ := hok B hB
      rw [hc, hd]
      exact ⟨p, rfl, hpi, commit_of_no_dest A.x hdest⟩

/-! ### The forwarding unit reads two commits ahead -/

/-- With no producer in `EX_MEM` an operand is its word in the register file Write-Back leaves: what `MEM_WB` forwards is what it commits
(R116, R119, R121). -/
theorem operand_of_no_producer_exMem {s : State} {x' : Regs} {n' : Nat} {r : Reg} (h : writeBackStage s = .next (x', n'))
    (hp : producerOf s.exMem r = none) : operand x' s r = .next (readReg x' r) := by
  by_cases hr : r = 0
  · subst hr
    rfl
  cases hq : producerOf s.memWb r with
  | none => exact forward_of_no_producer hr hp hq
  | some q =>
    obtain ⟨hmw, hd⟩ := producerOf_eq_some.mp hq
    exact forward_of_producer_memWb hr hp hq (readReg_of_writeBack h hmw hd hr)

/-- A producer in `EX_MEM` that is no `LW` is in `MEM_WB`, with the same fields, after the step. -/
theorem step_memWb_of_producer {s t : State} (h : step s = .next t) {p : InFlight} {r : Reg} (hp : s.exMem = .inFlight p)
    (hd : dest p.instr = some r) (hl : loadDest p.instr ≠ some r) : t.memWb = .inFlight p := by
  have hm : memAccess p.instr = .pass := by
    cases hi : p.instr <;> simp_all [dest, loadDest, memAccess]
  exact (next_pair_inj (step_memoryStage h) (memoryStage_pass hp hm)).2

/-- An operand is its word in the register file that this cycle's Write-Back and the next one's leave, unless an `LW` in `EX_MEM` is still
to read it (R111, R116). -/
theorem operand_eq_readReg {s t : State} (h : step s = .next t) {y : Regs} {c : Nat} (hwb : writeBackStage t = .next (y, c)) {r : Reg}
    (hl : ∀ p, s.exMem = .inFlight p → r ≠ 0 → loadDest p.instr ≠ some r) : operand t.x s r = .next (readReg y r) := by
  by_cases hr : r = 0
  · subst hr
    rfl
  cases hp : producerOf s.exMem r with
  | none =>
    have hsame : readReg y r = readReg t.x r := by
      refine writeBackStage_frame hwb fun hc => ?_
      obtain ⟨q, hq, hd, -⟩ := committedReg_eq_some.mp hc
      cases hem : s.exMem with
      | bubble => cases hq.symm.trans (step_memWb_of_bubble h hem)
      | inFlight p =>
        obtain ⟨q', hq', hi⟩ := step_memWb_of_inFlight h hem
        obtain rfl : q' = q := Latch.inFlight.inj (hq'.symm.trans hq)
        exact producerOf_eq_none.mp hp p hem (hi ▸ hd)
    rw [hsame]
    exact operand_of_no_producer_exMem (step_writeBackStage h) hp
  | some p =>
    obtain ⟨hem, hd⟩ := producerOf_eq_some.mp hp
    have hmw := step_memWb_of_producer h hem hd (hl p hem hr)
    exact forward_of_producer_exMem hr hp (readReg_of_writeBack hwb hmw hd hr)

end Sys2Proof.Proofs
end

section
/-! The reference side of the headlines: `SeqRun` slot by slot (R157), the stalls of a program slot by slot (R156, R286), and the runs of
the machine, cut in two. -/

namespace Sys2Proof.Proofs

open Sys2Proof.Machine Sys2Proof.Laws

/-! ### The sequential run (R157) -/

/-- A sequential run of two parts answers exactly when the first part does, and the second from there. -/
theorem seqRunFrom_append_ok {k : Nat} {as bs : List Instr} {A C : Arch} :
    seqRunFrom k (as ++ bs) A = .ok C ↔ ∃ B, seqRunFrom k as A = .ok B ∧ seqRunFrom (k + as.length) bs B = .ok C := by
  induction as generalizing k A with
  | nil => simp [seqRunFrom]
  | cons i as ih =>
    simp only [List.cons_append, seqRunFrom, List.length_cons, show k + (as.length + 1) = k + 1 + as.length by omega]
    cases seq i A with
    | ok B => exact ih
    | error f => simp

/-- The run of one slot more, if there is that slot. -/
theorem seqRun_take_succ {P : List Instr} {k : Nat} {A C : Arch} :
    seqRun (P.take (k + 1)) A = .ok C ↔
      ∃ B, seqRun (P.take k) A = .ok B ∧ (∀ i, P[k]? = some i → seq i B = .ok C) ∧ (P[k]? = none → C = B) := by
  rw [List.take_add_one, seqRun, seqRunFrom_append_ok]
  refine exists_congr fun B => and_congr_right fun _ => ?_
  cases P[k]? with
  | none => simp [seqRunFrom, eq_comm]
  | some i => cases hi : seq i B <;> simp [seqRunFrom, hi]

/-- A run that answers has answered before. -/
theorem seqRun_take_of_le {P : List Instr} {j k : Nat} {A C : Arch} (h : seqRun (P.take k) A = .ok C) (hjk : j ≤ k) :
    ∃ B, seqRun (P.take j) A = .ok B := by
  induction k, hjk using Nat.le_induction generalizing C with
  | base => exact ⟨C, h⟩
  | succ k _ ih =>
    obtain ⟨B, hB, -⟩ := seqRun_take_succ.mp h
    exact ih hB

/-- A run that raises has run the slots before the one that raises. -/
theorem seqRunFrom_eq_error {P : List Instr} {l j : Nat} {A : Arch} {f : Fault} (h : seqRunFrom l P A = .error (j, f)) :
    ∃ k i B, j = l + k ∧ P[k]? = some i ∧ seqRunFrom l (P.take k) A = .ok B ∧ seq i B = .error f := by
  induction P generalizing l A with
  | nil => cases h
  | cons i is ih =>
    rw [seqRunFrom] at h
    cases hi : seq i A with
    | error g =>
      rw [hi] at h
      cases h
      exact ⟨0, i, A, rfl, rfl, rfl, hi⟩
    | ok B =>
      rw [hi] at h
      obtain ⟨k, c, C, rfl, hc, hC, hseq⟩ := ih h
      exact ⟨k + 1, c, C, by omega, hc, by simpa [seqRunFrom, hi] using hC, hseq⟩

/-- The counted instructions of one slot more. -/
theorem countedInstrs_take_succ {P : List Instr} {k : Nat} {q : InFlight} (h : P[k]? = some q.instr) :
    countedInstrs (P.take (k + 1)) = countedInstrs (P.take k) + retireCount q := by
  rw [List.take_add_one, h]
  by_cases hn : q.instr = .nop <;> simp [countedInstrs, retireCount, hn]

/-- Past the end there is no slot more. -/
theorem take_succ_of_none {P : List Instr} {k : Nat} (h : P[k]? = none) : P.take (k + 1) = P.take k := by
  simp [List.take_add_one, h]

/-! ### Slots as they go through `IF_ID` and `ID_EX`, and the stalls among them (R156, R286) -/

/-- What Fetch makes of slot `k`: its fresh record, or a `Bubble` past the end (R150). -/
def slotLatch (P : List Instr) (k : Nat) : Latch :=
  match P[k]? with
  | some i => .inFlight (.fetched i)
  | none => .bubble

/-- What is in Execute when slot `k` comes to Decode: the slot before it, a `Bubble` before slot 0. -/
def slotBefore (P : List Instr) : Nat → Latch
  | 0 => .bubble
  | k + 1 => slotLatch P k

theorem slotLatch_of_some {P : List Instr} {k : Nat} {i : Instr} (h : P[k]? = some i) :
    slotLatch P k = .inFlight (.fetched i) := by
  simp [slotLatch, h]

theorem slotLatch_of_none {P : List Instr} {k : Nat} (h : P[k]? = none) : slotLatch P k = .bubble := by
  simp [slotLatch, h]

/-- The cycles slot `k` is held in Decode: one if it reads what the slot before it loads (R108). -/
def holdTime (P : List Instr) (k : Nat) : Nat := if hazard (slotLatch P k) (slotBefore P k) = .stall then 1 else 0

/-- No slot is held past the end. -/
theorem holdTime_of_none {P : List Instr} {k : Nat} (h : P[k]? = none) : holdTime P k = 0 := by
  simp [holdTime, slotLatch_of_none h]

/-- Slot 1 is held when slot 0 loads what it reads. -/
theorem holdTime_one (p c : Instr) (is : List Instr) : holdTime (p :: c :: is) 1 = if loadUse p c then 1 else 0 := by
  change (if hazard (.inFlight (.fetched c)) (.inFlight (.fetched p)) = .stall then 1 else 0) = _
  simp [hazard_inFlight, InFlight.fetched]

/-- A slot before all others does not change how long slots from 1 on are held. -/
theorem holdTime_cons (p : Instr) (P : List Instr) (k : Nat) : holdTime (p :: P) (k + 2) = holdTime P (k + 1) := rfl

/-- The stalls up to slot `k` are those before it and its own (R156). -/
theorem stallsUpTo_eq (P : List Instr) (k : Nat) : stallsUpTo P k = stallsBefore P k + holdTime P k := by
  unfold stallsUpTo stallsBefore
  induction k generalizing P with
  | zero => cases P <;> simp [stallCount, holdTime, slotBefore]
  | succ k ih =>
    match P with
    | [] => rfl
    | [p] => simp [stallCount, holdTime_of_none]
    | p :: c :: is =>
      have hrest := ih (c :: is)
      cases k with
      | zero => simp [stallCount, holdTime_one]
      | succ k =>
        simp only [List.take_succ_cons, stallCount, holdTime_cons] at hrest ⊢
        omega

/-- Past the end all stalls are counted. -/
theorem stallsUpTo_of_length_le {P : List Instr} {k : Nat} (h : P.length ≤ k + 1) : stallsUpTo P k = stallCount P := by
  rw [stallsUpTo, List.take_of_length_le h]

/-! ### Runs of the machine -/

/-- No cycle: the state itself. -/
theorem runsTo_zero {s t : State} : RunsTo 0 s t ↔ s = t := ⟨Host.Outcome.next.inj, congrArg _⟩

/-- One cycle, then the others. -/
theorem runsTo_succ {n : Nat} {s u : State} : RunsTo (n + 1) s u ↔ ∃ t, step s = .next t ∧ RunsTo n t u := by
  have hcore : core.step s = step s := rfl
  unfold RunsTo
  cases h : step s <;> simp [Host.Core.run, hcore, h]

/-- A run of `m + n` cycles is one of `m` and then one of `n`. -/
theorem runsTo_add {m n : Nat} {s u : State} : RunsTo (m + n) s u ↔ ∃ t, RunsTo m s t ∧ RunsTo n t u := by
  induction m generalizing s with
  | zero => simp [runsTo_zero]
  | succ m ih =>
    rw [Nat.add_right_comm, runsTo_succ]
    simp only [ih, runsTo_succ]
    constructor
    · rintro ⟨r, hr, t, hrt, htu⟩
      exact ⟨t, ⟨r, hr, hrt⟩, htu⟩
    · rintro ⟨t, ⟨r, hr, hrt⟩, htu⟩
      exact ⟨r, hr, t, hrt, htu⟩

/-- A run of one cycle is a step. -/
theorem runsTo_one {s t : State} : RunsTo 1 s t ↔ step s = .next t := by
  simp [runsTo_succ, runsTo_zero]

/-- The last cycle of a run. -/
theorem runsTo_snoc {n : Nat} {s u : State} : RunsTo (n + 1) s u ↔ ∃ t, RunsTo n s t ∧ step t = .next u := by
  simp only [runsTo_add, runsTo_one]

/-- The last cycle of a run, written as R156 numbers the cycles: `c + 1` after a slot and some stalls. -/
theorem runsTo_snoc_stalls {k c n : Nat} {s u : State} :
    RunsTo (k + (c + 1) + n) s u ↔ ∃ t, RunsTo (k + c + n) s t ∧ step t = .next u := by
  rw [← runsTo_snoc, Nat.add_right_comm _ n 1]
  rfl

end Sys2Proof.Proofs
end

section
/-! The pipeline follows the sequential machine (R156, R157, R160). Three predicates, one per latch from the back, say that the slots
before `k` of a program `P` are past Memory, past Execute, past Decode; a step takes each to the one behind it. `Front` adds that slot
`k` is in `IF_ID`; every cycle moves it on by one slot, or stalls. -/

namespace Sys2Proof.Proofs

open Sys2Proof.Machine Sys2Proof.Laws

variable (P : List Instr) (A₀ : Arch)

/-- The slots before `k` are past Memory: data memory is that of their sequential run `A`, and Write-Back leaves its registers and its
retire count. -/
structure PastMemory (k : Nat) (s : State) (A : Arch) : Prop where
  run : seqRun (P.take k) A₀ = .ok A
  dmem : s.dmem = A.dmem
  writeBack : writeBackStage s = .next (A.x, countedInstrs (P.take k))

/-- The slots before `k` are past Execute: `EX_MEM` holds the last of them, executed over the registers of the run of the others, or a
`Bubble`. -/
inductive PastExecute : Nat → State → Prop
  | bubble {k : Nat} {s : State} {A : Arch} (hA : PastMemory P A₀ k s A) (hem : s.exMem = .bubble) : PastExecute k s
  | record {k : Nat} {s : State} {A : Arch} {i : Instr} {p : InFlight} (hA : PastMemory P A₀ k s A) (hi : P[k]? = some i)
      (hem : s.exMem = .inFlight p) (hp : ExecutedFrom i A.x p) : PastExecute (k + 1) s

/-- The slots before `k` are past Decode: `ID_EX` holds the last of them, or a `Bubble`. -/
inductive PastDecode : Nat → State → Prop
  | bubble {k : Nat} {s : State} (h : PastExecute P A₀ k s) (hid : s.idEx = .bubble) : PastDecode k s
  | slot {k : Nat} {s : State} (h : PastExecute P A₀ k s) (hid : s.idEx = slotLatch P k) : PastDecode (k + 1) s

/-- Slot `k` is in `IF_ID`, the slots before it are past Decode, and the next one is about to be fetched. -/
structure Front (k : Nat) (s : State) : Prop where
  inv : s.Inv
  fault : s.fault = none
  prog : s.prog = P
  ifId : s.ifId = slotLatch P k
  pc : s.pc = min (k + 1) P.length
  pastDecode : PastDecode P A₀ k s

variable {P A₀}

/-! ### A step takes the slots one stage on -/

/-- Slots past Memory stay past Memory when `EX_MEM` is a `Bubble`. -/
theorem PastMemory.step_bubble {k : Nat} {s t : State} {A : Arch} (h : PastMemory P A₀ k s A) (hem : s.exMem = .bubble)
    (hst : step s = .next t) : PastMemory P A₀ k t A := by
  obtain ⟨run, dmem, writeBack⟩ := h
  obtain ⟨hmw, hd⟩ := step_memory_bubble hst hem
  have hwb : writeBackStage t = writeBackStage s := (writeBackStage_bubble hmw).trans (step_writeBackStage hst).symm
  exact ⟨run, hd.trans dmem, hwb.trans writeBack⟩

/-- The slot in `EX_MEM` goes past Memory when the step answers: its sequential meaning answers too, and the step does what it says. -/
theorem PastMemory.step_record {k : Nat} {s t : State} {A : Arch} (h : PastMemory P A₀ k s A) {i : Instr} {p : InFlight}
    (hi : P[k]? = some i) (hem : s.exMem = .inFlight p) (hp : ExecutedFrom i A.x p) (hst : step s = .next t) :
    ∃ B, PastMemory P A₀ (k + 1) t B := by
  obtain ⟨run, dmem, writeBack⟩ := h
  obtain ⟨hok, herr⟩ := hp.completes hem dmem
  obtain ⟨hx, hret⟩ := next_pair_inj (step_writeBackStage hst) writeBack
  cases hseq : seq i A with
  | error f => cases (herr f hseq).symm.trans (step_memoryStage hst)
  | ok B =>
    obtain ⟨q, hq, rfl, hcommit⟩ := hok B hseq
    obtain ⟨hd, hmw⟩ := next_pair_inj (step_memoryStage hst) hq
    have hrun : seqRun (P.take (k + 1)) A₀ = .ok B := seqRun_take_succ.mpr ⟨A, run, by simp [hi, hseq], by simp [hi]⟩
    have hwb := writeBackStage_inFlight hmw (hx ▸ hcommit)
    rw [hret, ← countedInstrs_take_succ hi] at hwb
    exact ⟨B, hrun, hd, hwb⟩

/-- Slots past Execute are past Memory after a step. -/
theorem PastExecute.advance {k : Nat} {s t : State} (h : PastExecute P A₀ k s) (hst : step s = .next t) :
    ∃ A, PastMemory P A₀ k t A := by
  cases h with
  | bubble hA hem => exact ⟨_, hA.step_bubble hem hst⟩
  | record hA hi hem hp => exact hA.step_record hi hem hp hst

/-- Past the end of the program there is no slot more that has to be past Memory. -/
theorem PastMemory.succ_of_none {k : Nat} {s : State} {A : Arch} (h : PastMemory P A₀ k s A) (hk : P[k]? = none) :
    PastMemory P A₀ (k + 1) s A := by
  obtain ⟨run, dmem, writeBack⟩ := h
  rw [← take_succ_of_none hk] at run writeBack
  exact ⟨run, dmem, writeBack⟩

/-- The slot in Execute is executed over the registers of the run before it: forwarding finds them all (R111, R116). -/
theorem executedFrom_of_step {s t : State} (hs : s.Inv) (hst : step s = .next t) {i : Instr} (hid : s.idEx = .inFlight (.fetched i))
    {y : Regs} {c : Nat} (hwb : writeBackStage t = .next (y, c)) : ∃ p, t.exMem = .inFlight p ∧ ExecutedFrom i y p := by
  obtain ⟨p, hfill, hem⟩ := step_exMem_of_inFlight hst hid
  exact ⟨p, hem, executedFrom_of_fillOf hfill fun k hk => operand_eq_readReg hst hwb fun _ hp =>
    loadDest_ne_of_interlocked hs.interlocked hp hid hk⟩

/-- Slots past Decode are past Execute after a step. -/
theorem PastDecode.advance {k : Nat} {s t : State} (h : PastDecode P A₀ k s) (hs : s.Inv) (hst : step s = .next t) :
    PastExecute P A₀ k t := by
  cases h with
  | bubble h hid =>
    obtain ⟨A, hA⟩ := h.advance hst
    exact .bubble hA (step_exMem_of_bubble hst hid)
  | @slot k _ h hid =>
    obtain ⟨A, hA⟩ := h.advance hst
    cases hi : P[k]? with
    | none => exact .bubble (hA.succ_of_none hi) (step_exMem_of_bubble hst (hid.trans (slotLatch_of_none hi)))
    | some i =>
      obtain ⟨p, hem, hp⟩ := executedFrom_of_step hs hst (hid.trans (slotLatch_of_some hi)) hA.writeBack
      exact .record hA hi hem hp

/-- Fetch, with slot `k` in `IF_ID` and no stall, fetches the slot after it. -/
theorem Front.fetchStage_eq {k : Nat} {s : State} (h : Front P A₀ k s) (hz : hazard s.ifId s.idEx = .proceed) :
    fetchStage s = (slotLatch P (k + 1), min (k + 2) P.length) := by
  obtain ⟨-, -, hprog, -, hpc, -⟩ := h
  cases hi : P[k + 1]? with
  | some i =>
    have hlt := (List.getElem?_eq_some_iff.mp hi).1
    have hk : s.pc = k + 1 := by omega
    simp only [fetchStage, hz, hprog, hk, hi, slotLatch_of_some hi]
    rw [Nat.min_eq_left hlt]
  | none =>
    have hle := List.getElem?_eq_none_iff.mp hi
    have hk : s.pc = P.length := by omega
    simp only [fetchStage, hz, hprog, hk, List.getElem?_length, slotLatch_of_none hi]
    rw [Nat.min_eq_right (by omega)]

/-- A step that does not stall moves the front by one slot. -/
theorem Front.step_proceed {k : Nat} {s t : State} (h : Front P A₀ k s) (hz : hazard s.ifId s.idEx = .proceed)
    (hst : step s = .next t) : Front P A₀ (k + 1) t ∧ t.idEx = slotLatch P k := by
  have hpast := h.pastDecode.advance h.inv hst
  have hid : t.idEx = slotLatch P k := (step_idEx_of_proceed hst hz).trans h.ifId
  have hinv := stepKeepsTheInvariant s t h.inv hst
  have hfetch := h.fetchStage_eq hz
  obtain ⟨-, x', n', m', mw', em', -, -, -, rfl⟩ := step_next.mp hst
  exact ⟨⟨hinv, rfl, h.prog, congrArg Prod.fst hfetch, congrArg Prod.snd hfetch, .slot hpast hid⟩, hid⟩

/-- A step that stalls holds the front, with a `Bubble` behind the load. -/
theorem Front.step_stall {k : Nat} {s t : State} (h : Front P A₀ k s) (hz : hazard s.ifId s.idEx = .stall)
    (hst : step s = .next t) : Front P A₀ k t ∧ t.idEx = .bubble := by
  obtain ⟨hid, hif, hpc⟩ := step_of_stall hst hz
  have hpast := h.pastDecode.advance h.inv hst
  have hframe := step_frame hst
  exact ⟨⟨stepKeepsTheInvariant s t h.inv hst, hframe.fault.trans h.fault, hframe.prog.trans h.prog, hif.trans h.ifId,
    hpc.trans h.pc, .bubble hpast hid⟩, hid⟩

/-! ### The cycles answer as far as the sequential run does -/

/-- A cycle answers when the sequential run of the slots past Execute does. -/
theorem PastExecute.exists_step {k : Nat} {s : State} (h : PastExecute P A₀ k s) (hs : s.Inv) (hf : s.fault = none) {B : Arch}
    (hB : seqRun (P.take k) A₀ = .ok B) : ∃ t, step s = .next t := by
  have hmem : ∃ r, memoryStage s = .next r := by
    cases h with
    | bubble hA hem => exact ⟨_, memoryStage_bubble hem⟩
    | record hA hi hem hp =>
      obtain ⟨A, hrun, hseq, -⟩ := seqRun_take_succ.mp hB
      cases hA.run.symm.trans hrun
      obtain ⟨q, hq, -⟩ := (hp.completes hem hA.dmem).1 B (hseq _ hi)
      exact ⟨_, hq⟩
  obtain ⟨r, hr⟩ := hmem
  exact (unfaultedStepIsNeverRefused s hs hf).1 (by simp [pendingFault, hr])

/-- A cycle answers when the sequential run of the slots past Decode does. -/
theorem Front.exists_step {k : Nat} {s : State} (h : Front P A₀ k s) {B : Arch} (hB : seqRun (P.take k) A₀ = .ok B) :
    ∃ t, step s = .next t := by
  cases h.pastDecode with
  | bubble hpast _ => exact hpast.exists_step h.inv h.fault hB
  | slot hpast _ =>
    obtain ⟨A, hA⟩ := seqRun_take_of_le hB (Nat.le_succ _)
    exact hpast.exists_step h.inv h.fault hA

/-! ### From a loaded state, slot by slot -/

/-- A loaded state meets the invariant. -/
theorem inv_of_loaded {s : State} (h : s.Loaded) : s.Inv := by
  obtain ⟨⟨hif, hid, hem, hmw⟩, hpc, -, hf, hlen, hzero, hmem⟩ := h
  exact {
    zero := hzero
    mem := hmem
    pcBound := by omega
    progBound := hlen
    ifIdShape := by rw [hif]; rfl
    idExShape := by rw [hid]; rfl
    exMemShape := by rw [hem]; rfl
    memWbShape := by rw [hmw]; rfl
    interlocked := by simp [State.interlocked, hem]
    faultFromExMem := .inl hf }

section

variable {s : State} (hs : s.Loaded)
include hs

/-- In a loaded state no slot is past Execute. -/
theorem pastExecute_of_loaded : PastExecute s.prog s.arch 0 s := by
  obtain ⟨⟨-, -, hem, hmw⟩, -, hret, -⟩ := hs
  have hwb : writeBackStage s = .next (s.x, 0) := hret ▸ writeBackStage_bubble hmw
  exact .bubble ⟨rfl, rfl, hwb⟩ hem

/-- The first cycle after a load answers, and fetches slot 0. -/
theorem front_of_loaded : ∃ t, step s = .next t ∧ Front s.prog s.arch 0 t ∧ t.idEx = .bubble := by
  have hinv := inv_of_loaded hs
  have hpast := pastExecute_of_loaded hs
  obtain ⟨⟨hif, hid, -, -⟩, hpc, -, hf, -⟩ := hs
  obtain ⟨t, hst⟩ := hpast.exists_step hinv hf rfl
  have hz : hazard s.ifId s.idEx = .proceed := by rw [hif, hazard_bubble_left]
  have hidt : t.idEx = .bubble := (step_idEx_of_proceed hst hz).trans hif
  have hframe := step_frame hst
  obtain ⟨hslot, hend⟩ := step_fetch_of_proceed hst hz
  have hfetch : t.ifId = slotLatch s.prog 0 ∧ t.pc = min 1 s.prog.length := by
    cases hi : s.prog[0]? with
    | some i =>
      have hlt := (List.getElem?_eq_some_iff.mp hi).1
      obtain ⟨hif', hpc'⟩ := hslot i (hpc ▸ hi)
      exact ⟨hif'.trans (slotLatch_of_some hi).symm, by omega⟩
    | none =>
      have hle := List.getElem?_eq_none_iff.mp hi
      obtain ⟨hif', hpc'⟩ := hend (hpc ▸ hi)
      exact ⟨hif'.trans (slotLatch_of_none hi).symm, by omega⟩
  exact ⟨t, hst, ⟨stepKeepsTheInvariant s t hinv hst, hframe.fault.trans hf, hframe.prog, hfetch.1, hfetch.2,
    .bubble ((PastDecode.bubble hpast hid).advance hinv hst) hidt⟩, hidt⟩

end

/-- Slot `k` has just come to `IF_ID`, and the slot before it to Execute. -/
structure Entered (P : List Instr) (A₀ : Arch) (k : Nat) (s : State) : Prop where
  front : Front P A₀ k s
  idEx : s.idEx = slotBefore P k

/-- Slot `k` is in `IF_ID` and leaves it with the next cycle. -/
structure Ready (P : List Instr) (A₀ : Arch) (k : Nat) (s : State) : Prop where
  front : Front P A₀ k s
  proceed : hazard s.ifId s.idEx = .proceed

/-- A slot that leaves Decode lets the next one in. -/
theorem Ready.advance {k : Nat} {s t : State} (h : Ready P A₀ k s) (hst : step s = .next t) : Entered P A₀ (k + 1) t :=
  let ⟨hfront, hid⟩ := h.front.step_proceed h.proceed hst
  ⟨hfront, hid⟩

/-- A slot that has come to Decode leaves it after the cycles it is held there. -/
theorem Entered.ready {k : Nat} {s : State} (h : Entered P A₀ k s) :
    (∀ t, RunsTo (holdTime P k) s t → Ready P A₀ k t) ∧
    (∀ B, seqRun (P.take k) A₀ = .ok B → ∃ t, RunsTo (holdTime P k) s t) := by
  obtain ⟨front, hid⟩ := h
  rw [holdTime, ← front.ifId, ← hid]
  cases hz : hazard s.ifId s.idEx with
  | proceed =>
    refine ⟨fun t ht => ?_, fun B _ => ⟨s, runsTo_zero.mpr rfl⟩⟩
    obtain rfl := runsTo_zero.mp ht
    exact ⟨front, hz⟩
  | stall =>
    refine ⟨fun t ht => ?_, fun B hB => ?_⟩
    · obtain ⟨hfront, hidt⟩ := front.step_stall hz (runsTo_one.mp ht)
      exact ⟨hfront, by rw [hidt, hazard_bubble_right]⟩
    · obtain ⟨t, ht⟩ := front.exists_step hB
      exact ⟨t, runsTo_one.mpr ht⟩

/-- The cycles to where slot `k` leaves `IF_ID` are those to where it comes there and those it is held. -/
theorem runsTo_stallsUpTo {k : Nat} {P : List Instr} {s t : State} :
    RunsTo (k + 1 + stallsUpTo P k) s t ↔
      ∃ u, RunsTo (k + 1 + stallsBefore P k) s u ∧ RunsTo (holdTime P k) u t := by
  rw [stallsUpTo_eq, ← Nat.add_assoc, runsTo_add]

section

variable {s : State} (hs : s.Loaded)
include hs

/-- R156, first part: slot `k` comes to `IF_ID` in cycle `k + 1 + s_(k-1)`. -/
theorem entered_of_runsTo {k : Nat} {t : State} (ht : RunsTo (k + 1 + stallsBefore s.prog k) s t) :
    Entered s.prog s.arch k t := by
  induction k generalizing t with
  | zero =>
    obtain ⟨u, hu, hfront, hid⟩ := front_of_loaded hs
    cases hu.symm.trans (runsTo_one.mp ht)
    exact ⟨hfront, hid⟩
  | succ k ih =>
    obtain ⟨v, hv, hvt⟩ := runsTo_snoc_stalls.mp ht
    obtain ⟨u, hu, huv⟩ := runsTo_stallsUpTo.mp hv
    exact ((ih hu).ready.1 v huv).advance hvt

/-- R156, second part: slot `k` leaves `IF_ID` with the cycle after cycle `k + 1 + s_k`. -/
theorem ready_of_runsTo {k : Nat} {t : State} (ht : RunsTo (k + 1 + stallsUpTo s.prog k) s t) : Ready s.prog s.arch k t := by
  obtain ⟨u, hu, hut⟩ := runsTo_stallsUpTo.mp ht
  exact (entered_of_runsTo hs hu).ready.1 t hut

/-- The run gets to slot `k` when the sequential run of the slots before it raises nothing. -/
theorem exists_runsTo {k : Nat} {A : Arch} (hA : seqRun (s.prog.take k) s.arch = .ok A) :
    ∃ t, RunsTo (k + 1 + stallsUpTo s.prog k) s t := by
  have hentered : ∃ u, RunsTo (k + 1 + stallsBefore s.prog k) s u := by
    induction k generalizing A with
    | zero =>
      obtain ⟨u, hu, -⟩ := front_of_loaded hs
      exact ⟨u, runsTo_one.mpr hu⟩
    | succ k ih =>
      obtain ⟨B, hB⟩ := seqRun_take_of_le hA (Nat.le_succ k)
      obtain ⟨u, hu⟩ := ih hB
      obtain ⟨v, hv⟩ := (entered_of_runsTo hs hu).ready.2 B hB
      have hsv := runsTo_stallsUpTo.mpr ⟨u, hu, hv⟩
      obtain ⟨w, hw⟩ := (ready_of_runsTo hs hsv).front.exists_step hB
      exact ⟨w, runsTo_snoc_stalls.mpr ⟨v, hsv, hw⟩⟩
  obtain ⟨u, hu⟩ := hentered
  obtain ⟨t, ht⟩ := (entered_of_runsTo hs hu).ready.2 A hA
  exact ⟨t, runsTo_stallsUpTo.mpr ⟨u, hu, ht⟩⟩

end

end Sys2Proof.Proofs
end

section
/-! The headlines of the pipeline: where each slot is in every cycle (R156), what a run that raises nothing ends with, and where one that
raises stops (R160, R245). -/

namespace Sys2Proof.Proofs

open Sys2Proof.Machine Sys2Proof.Laws

/-! ### Past the end of the program -/

section

variable {P : List Instr} {A₀ : Arch}

/-- When more slots are past Execute than the program has, `EX_MEM` is a `Bubble`. -/
theorem PastExecute.exMem_past_end {k : Nat} {s : State} (h : PastExecute P A₀ k s) (hk : P.length < k) : s.exMem = .bubble := by
  cases h with
  | bubble _ hem => exact hem
  | record _ hi =>
    have := (List.getElem?_eq_some_iff.mp hi).1
    omega

/-- When two slots more are past Decode than the program has, `ID_EX` and `EX_MEM` are `Bubble`s. -/
theorem PastDecode.bubbles_past_end {k : Nat} {s : State} (h : PastDecode P A₀ k s) (hk : P.length + 1 < k) :
    s.idEx = .bubble ∧ s.exMem = .bubble := by
  cases h with
  | bubble h hid => exact ⟨hid, h.exMem_past_end (by omega)⟩
  | slot h hid => exact ⟨hid.trans (slotLatch_of_none (List.getElem?_eq_none (by omega))), h.exMem_past_end (by omega)⟩

/-- With `Bubble`s in `EX_MEM` and `MEM_WB` the registers, data memory and retire count are those of the sequential run. -/
theorem PastExecute.arch_of_bubbles {k : Nat} {s : State} (h : PastExecute P A₀ k s) (hem : s.exMem = .bubble)
    (hmw : s.memWb = .bubble) : seqRun (P.take k) A₀ = .ok s.arch ∧ s.retired = countedInstrs (P.take k) := by
  cases h with
  | bubble hA =>
    obtain ⟨hrun, hdmem, hwb⟩ := hA
    obtain ⟨hx, hret⟩ := next_pair_inj (writeBackStage_bubble hmw) hwb
    exact ⟨by simp [hrun, State.arch, hx, hdmem], hret⟩
  | record _ _ hem' => cases hem.symm.trans hem'

end

/-- R155, R287: after `len + 4 + s` cycles from a loaded state the datapath is drained, and holds what the sequential run ends with. -/
theorem drained_of_runsTo {s t : State} {n : Nat} (hs : s.Loaded) (hn : s.prog.length + 4 + stallCount s.prog ≤ n)
    (ht : RunsTo n s t) :
    t.Drained ∧ t.fault = none ∧ seqRun s.prog s.arch = .ok t.arch ∧ t.retired = countedInstrs s.prog := by
  obtain ⟨k, hk, rfl⟩ : ∃ k, s.prog.length + 2 ≤ k ∧ n = k + 2 + stallCount s.prog :=
    ⟨n - 2 - stallCount s.prog, by omega, by omega⟩
  rw [← stallsUpTo_of_length_le (k := k) (by omega)] at ht
  obtain ⟨u, hu, hut⟩ := runsTo_snoc_stalls.mp ht
  have hready := ready_of_runsTo hs hu
  obtain ⟨hid, hem⟩ := hready.front.pastDecode.bubbles_past_end (by omega)
  have hpast := hready.front.pastDecode.advance hready.front.inv hut
  obtain ⟨⟨-, hf, hprog, hif, hpc, -⟩, hidt⟩ := hready.advance hut
  have hemt := step_exMem_of_bubble hut hid
  have hmwt := step_memWb_of_bubble hut hem
  obtain ⟨hrun, hret⟩ := hpast.arch_of_bubbles hemt hmwt
  rw [List.take_of_length_le (by omega)] at hrun hret
  have hslot : ∀ j, k ≤ j → slotLatch s.prog j = .bubble := fun j hj =>
    slotLatch_of_none (List.getElem?_eq_none (by omega))
  refine ⟨⟨?_, ?_, ?_, hemt, hmwt⟩, hf, hrun, hret⟩
  · rw [hpc, hprog, Nat.min_eq_right (by omega)]
  · rw [hif, hslot _ (Nat.le_succ k)]
  · rw [hidt]
    exact hslot k le_rfl

/-- A run as long as one that answers, or shorter, answers. -/
theorem exists_runsTo_of_le {m n : Nat} {s u : State} (h : RunsTo n s u) (hmn : m ≤ n) : ∃ t, RunsTo m s t := by
  obtain ⟨d, rfl⟩ := Nat.exists_eq_add_of_le hmn
  obtain ⟨t, ht, -⟩ := runsTo_add.mp h
  exact ⟨t, ht⟩

/-- Settles O54: the run gets to every slot, those past the end too, so that it answers for any number of cycles; it has drained by
then. -/
theorem pipelineComputesTheSequentialResult : Obligations.PipelineComputesTheSequentialResult := by
  intro s A n hs hA hn
  have htake : seqRun (s.prog.take n) s.arch = .ok A := by
    rw [List.take_of_length_le (by omega)]
    exact hA
  obtain ⟨u, hu⟩ := exists_runsTo hs htake
  obtain ⟨t, ht⟩ := exists_runsTo_of_le (m := n) hu (by omega)
  obtain ⟨hdrained, hf, hrun, hret⟩ := drained_of_runsTo hs hn ht
  exact ⟨t, ht, hf, hdrained, Except.ok.inj (hrun.symm.trans hA), hret⟩

/-- Settles O55: the slots before the one that raises are run; that one gets to `EX_MEM`, executed over their registers, and Memory
raises its error. -/
theorem pipelineFaultsWhereTheSequentialRunDoes : Obligations.PipelineFaultsWhereTheSequentialRunDoes := by
  intro s k f hs herr
  obtain ⟨j, i, A, hj, hi, hA, hseq⟩ := seqRunFrom_eq_error herr
  obtain rfl : k = j := by omega
  obtain ⟨t₁, h₁⟩ := exists_runsTo hs hA
  have hready := ready_of_runsTo hs h₁
  obtain ⟨t₂, h₂⟩ := hready.front.exists_step hA
  have hpast := hready.front.pastDecode.advance hready.front.inv h₂
  obtain ⟨hfront, hid⟩ := hready.advance h₂
  obtain ⟨t, h₃⟩ := hpast.exists_step hfront.inv hfront.fault hA
  obtain ⟨B, hrun, hdmem, hwb⟩ := hpast.advance h₃
  obtain rfl : A = B := Except.ok.inj (hA.symm.trans hrun)
  obtain ⟨p, hem, hp⟩ := executedFrom_of_step hfront.inv h₃ (hid.trans (slotLatch_of_some hi)) hwb
  have hmem : memoryStage t = .fault f := (hp.completes hem hdmem).2 f hseq
  have hfault : t.fault = none := (step_frame h₃).fault.trans hfront.fault
  exact ⟨t, A, _, runsTo_snoc_stalls.mpr ⟨t₂, runsTo_snoc_stalls.mpr ⟨t₁, h₁, h₂⟩, h₃⟩,
    step_of_memoryStage_fault hfault hwb hmem, hA, hdmem, hwb⟩

/-! ### Where a slot is in every cycle (R156) -/

section

variable {s : State} (hs : s.Loaded) {k : Nat}
include hs

/-- R156: slot `k` is in `EX_MEM` after cycle `k + 3 + s_k`. -/
theorem exMem_of_runsTo {t : State} {i : Instr} (hi : s.prog[k]? = some i) (ht : RunsTo (k + 3 + stallsUpTo s.prog k) s t) :
    PastExecute s.prog s.arch (k + 1) t ∧ ∃ r, t.exMem = .inFlight r ∧ r.instr = i := by
  obtain ⟨u, hu, hut⟩ := runsTo_snoc_stalls.mp ht
  obtain ⟨hfront, hid⟩ := entered_of_runsTo (k := k + 1) hs hu
  obtain ⟨r, hfill, hr⟩ := step_exMem_of_inFlight hut (hid.trans (slotLatch_of_some hi))
  exact ⟨hfront.pastDecode.advance hfront.inv hut, r, hr, fillOf_instr hfill⟩

/-- R156: slot `k` is in `MEM_WB` after cycle `k + 4 + s_k`. -/
theorem memWb_of_runsTo {t : State} {i : Instr} (hi : s.prog[k]? = some i) (ht : RunsTo (k + 4 + stallsUpTo s.prog k) s t) :
    (∃ A, PastMemory s.prog s.arch (k + 1) t A) ∧ ∃ r, t.memWb = .inFlight r ∧ r.instr = i := by
  obtain ⟨u, hu, hut⟩ := runsTo_snoc_stalls.mp ht
  obtain ⟨hpast, p, hp, hpi⟩ := exMem_of_runsTo hs hi hu
  obtain ⟨q, hq, hqi⟩ := step_memWb_of_inFlight hut hp
  exact ⟨hpast.advance hut, q, hq, hqi.trans hpi⟩

/-- R156: slot `k` is counted after cycle `k + 5 + s_k`. -/
theorem retired_of_runsTo {t : State} {i : Instr} (hi : s.prog[k]? = some i) (ht : RunsTo (k + 5 + stallsUpTo s.prog k) s t) :
    t.retired = countedInstrs (s.prog.take (k + 1)) := by
  obtain ⟨u, hu, hut⟩ := runsTo_snoc_stalls.mp ht
  obtain ⟨⟨A, hA⟩, -⟩ := memWb_of_runsTo hs hi hu
  exact (next_pair_inj (step_writeBackStage hut) hA.writeBack).2

end

/-- Settles O56: slot `k` is in `ID_EX` when the next one comes to `IF_ID`, and in the latches behind it in the cycles after; the last
slot is counted when the datapath is drained. -/
theorem occupancyFollowsTheStallCount : Obligations.OccupancyFollowsTheStallCount := by
  intro s t k i hs hi
  have hslot := slotLatch_of_some hi
  refine ⟨fun ht => (entered_of_runsTo hs ht).front.ifId.trans hslot, fun ht => (ready_of_runsTo hs ht).front.ifId.trans hslot,
    fun ht => (entered_of_runsTo (k := k + 1) hs ht).idEx.trans hslot, fun ht => (exMem_of_runsTo hs hi ht).2,
    fun ht => (memWb_of_runsTo hs hi ht).2, fun ht => ⟨retired_of_runsTo hs hi ht, fun hlast => ?_⟩⟩
  rw [stallsUpTo_of_length_le hlast.ge] at ht
  obtain ⟨hdrained, -⟩ := drained_of_runsTo hs (by omega) ht
  exact hdrained

end Sys2Proof.Proofs
end

section
/-! The Execute step in every state of normal operation (R143 to R146, R200, R202): it answers, with the operands the forwarding unit
resolves against the register file before the cycle. -/

namespace Sys2Proof.Proofs

open Sys2Proof.Machine Sys2Proof.Laws Sys2Proof.Statements

/-- In normal operation the cycle that executes an instruction answers, and `EX_MEM` is what Execute makes of it from the register file
before the cycle (R121). -/
theorem exec_of_executes {s : State} {i : Instr} (h : Executes s i) :
    ∃ t p, exec i s = .next t ∧ t.exMem = .inFlight p ∧ fillOf i s.x s (.fetched i) = .next p := by
  obtain ⟨⟨hinv, hf, hpending⟩, hid⟩ := h
  obtain ⟨t, ht⟩ := (unfaultedStepIsNeverRefused s hinv hf).1 hpending
  obtain ⟨p, hfill, hp⟩ := step_exMem_of_inFlight ht hid
  refine ⟨t, p, (exec_eq_step hid).trans ht, hp, (fillOf_congr _ fun k _ => ?_).trans hfill⟩
  exact (forwardingCannotSeeWriteBackTiming s _ _ k (step_writeBackStage ht)).symm

/-- An instruction whose Execute is `f` of two operands executes as R144 says. -/
theorem executesRegisterAlu_of_fillOf {i : Instr} {rs rt : Reg} {f : Word → Word → Word}
    (hfill : ∀ x s r, fillOf i x s r =
      (operand x s rs).bind fun a => (operand x s rt).bind fun b => .next { r with result := some (f a b) }) :
    ExecutesRegisterAlu i rs rt f := by
  intro s h
  obtain ⟨t, p, ht, hem, hp⟩ := exec_of_executes h
  rw [hfill] at hp
  obtain ⟨a, ha, hp⟩ := bind_eq_next.mp hp
  obtain ⟨b, hb, hp⟩ := bind_eq_next.mp hp
  cases hp
  exact ⟨a, b, t, ha, hb, ht, hem⟩

/-- Settles O27: each of the five is `f` of two operands. -/
theorem executeComputesRegisterResults : Obligations.ExecuteComputesRegisterResults := fun _ _ _ =>
  ⟨executesRegisterAlu_of_fillOf fun _ _ _ => rfl, executesRegisterAlu_of_fillOf fun _ _ _ => rfl,
    executesRegisterAlu_of_fillOf fun _ _ _ => rfl, executesRegisterAlu_of_fillOf fun _ _ _ => rfl,
    executesRegisterAlu_of_fillOf fun _ _ _ => rfl⟩

/-- An instruction whose Execute is `f` of one operand and the sign-extended immediate executes as R145 says. -/
theorem executesImmediateAlu_of_fillOf {i : Instr} {rs : Reg} {imm : Imm} {f : Word → Word → Word}
    (hfill : ∀ x s r, fillOf i x s r = (operand x s rs).bind fun a => .next { r with result := some (f a (sext imm)) }) :
    ExecutesImmediateAlu i rs imm f := by
  intro s h
  obtain ⟨t, p, ht, hem, hp⟩ := exec_of_executes h
  rw [hfill] at hp
  obtain ⟨a, ha, hp⟩ := bind_eq_next.mp hp
  cases hp
  exact ⟨a, t, ha, ht, hem⟩

/-- Settles O28: both are `f` of an operand and the immediate. -/
theorem executeComputesImmediateResults : Obligations.ExecuteComputesImmediateResults := fun _ _ _ =>
  ⟨executesImmediateAlu_of_fillOf fun _ _ _ => rfl, executesImmediateAlu_of_fillOf fun _ _ _ => rfl⟩

/-- Settles O29: Execute answers whatever the address is, and fills in the fields of `fillOf`. -/
theorem executeComputesAddresses : Obligations.ExecuteComputesAddresses := by
  intro rt rs imm s
  constructor
  · intro h
    obtain ⟨t, p, ht, hem, hp⟩ := exec_of_executes h
    obtain ⟨a, ha, hp⟩ := bind_eq_next.mp hp
    cases hp
    exact ⟨a, t, ha, ht, hem⟩
  · intro h
    obtain ⟨t, p, ht, hem, hp⟩ := exec_of_executes h
    obtain ⟨a, ha, hp⟩ := bind_eq_next.mp hp
    obtain ⟨v, hv, hp⟩ := bind_eq_next.mp hp
    cases hp
    exact ⟨a, v, t, ha, hv, ht, hem⟩

/-- Settles O30: Execute fills in no field of a `NOP`, and passes a `Bubble`. -/
theorem executePassesNopAndBubble : Obligations.ExecutePassesNopAndBubble := by
  refine fun s => ⟨fun h => ?_, fun h hid => ?_⟩
  · obtain ⟨t, p, ht, hem, hp⟩ := exec_of_executes h
    cases hp
    obtain ⟨-, hid⟩ := h
    exact ⟨t, ht, hem.trans hid.symm⟩
  · obtain ⟨hinv, hf, hpending⟩ := h
    obtain ⟨t, ht⟩ := (unfaultedStepIsNeverRefused s hinv hf).1 hpending
    exact ⟨t, ht, step_exMem_of_bubble ht hid⟩

/-! ### The instruction a step runs -/

/-- The stall flag is off exactly when the detector lets Decode proceed (R46). -/
theorem stallFlag_eq_false {s : State} : stallFlag s = false ↔ hazard s.ifId s.idEx = .proceed := by
  unfold stallFlag
  cases hazard s.ifId s.idEx <;> simp

/-- Placing a legal word puts its instruction in `ID_EX`, fresh. -/
theorem withFetchWord_of_decode {w : Nat} {i : Instr} (s : State) (hw : w < 2 ^ 32) (hi : decode (BitVec.ofNat 32 w) = .ok i) :
    s.withFetchWord 32 w = s.loadedAndDecoded i := by
  have htable : decodeTableWord 32 w = some i := by rw [decodeTableWord, if_pos le_rfl, Nat.mod_eq_of_lt hw, hi]
  simp [State.withFetchWord, htable]

/-- Settles O26: a step is by definition the meaning of the instruction in `ID_EX`; placing a word puts it there, and so do two cycles
that fetch and decode. -/
theorem stepRunsTheDecodedInstruction : Obligations.StepRunsTheDecodedInstruction := by
  have hrun : ∀ (s : State) (r : InFlight), s.idEx = .inFlight r → step s = exec r.instr s :=
    fun _ _ h => (exec_eq_step h).symm
  refine ⟨hrun, fun s h => by rw [step_eq, h], fun s w i hw hi => ?_, fun s t u i hi hs hst => ?_⟩
  · rw [withFetchWord_of_decode s hw hi]
    exact hrun _ _ (loadedAndDecoded_idEx s i)
  · obtain ⟨hif, hpc⟩ := (step_fetch_of_proceed hst (stallFlag_eq_false.mp hs)).1 i hi
    refine ⟨hif, hpc, fun ht htu => ?_⟩
    have hid : u.idEx = .inFlight (.fetched i) := (step_idEx_of_proceed htu (stallFlag_eq_false.mp ht)).trans hif
    exact ⟨hid, hrun u _ hid⟩

end Sys2Proof.Proofs
end

section
/-! What the Write-Back and Memory steps do in a cycle that answers (R135 to R142), the address checks (R140, R56, R57), and how `Bubble`s
move through the latches (R155). -/

namespace Sys2Proof.Proofs

open Sys2Proof.Machine Sys2Proof.Laws

/-! ### Write-Back -/

/-- A `Bubble` in `MEM_WB` leaves registers and retire count (R135, R155). -/
theorem step_writeBack_bubble {s t : State} (h : step s = .next t) (hmw : s.memWb = .bubble) :
    t.x = s.x ∧ t.retired = s.retired :=
  next_pair_inj (step_writeBackStage h) (writeBackStage_bubble hmw)

/-- A record in `MEM_WB` is committed and counted in a step that answers (R136, R137). -/
theorem step_writeBack_inFlight {s t : State} {q : InFlight} (h : step s = .next t) (hmw : s.memWb = .inFlight q) :
    commit q s.x = .next t.x ∧ t.retired = s.retired + retireCount q := by
  have hwb := step_writeBackStage h
  simp only [writeBackStage, hmw] at hwb
  obtain ⟨y, hy, hn⟩ := bind_eq_next.mp hwb
  obtain ⟨rfl, hret⟩ := Prod.mk.inj (Host.Outcome.next.inj hn)
  exact ⟨hy, hret.symm⟩

/-- Settles O43: the commit by whether the record has a destination, the count by whether it is a `NOP`. -/
theorem writeBackCommitsAndCounts : Obligations.WriteBackCommitsAndCounts := by
  refine fun s t h => ⟨step_writeBack_bubble h, fun q hq => ?_⟩
  obtain ⟨hcommit, hret⟩ := step_writeBack_inFlight h hq
  refine ⟨fun d w hd hw => ?_, fun hd => ?_, fun hs d hd => ?_, fun hn => ?_, fun hn => ?_⟩
  · exact Host.Outcome.next.inj (hcommit.symm.trans (commit_of_result s.x hd hw))
  · exact Host.Outcome.next.inj (hcommit.symm.trans (commit_of_no_dest s.x hd))
  · have hshape := hs.memWbShape
    rw [hq] at hshape
    exact exists_result_of_shapeAccessed hshape hd
  · rw [hret, retireCount, if_neg hn]
  · rw [hret, retireCount, if_pos hn, Nat.add_zero]

/-! ### Memory -/

/-- The records that make no access are those of neither an `LW` nor an `SW` (R139). -/
theorem memAccess_eq_pass {i : Instr} :
    memAccess i = .pass ↔ (∀ rt rs imm, i ≠ .lw rt rs imm) ∧ ∀ rt rs imm, i ≠ .sw rt rs imm := by
  cases i <;> simp [memAccess]

/-- Settles O44: the four ways Memory can answer, told apart by the record in `EX_MEM`. -/
theorem memoryReadsForLwAndWritesForSw : Obligations.MemoryReadsForLwAndWritesForSw := by
  refine fun s t h => ⟨step_memory_bubble h, fun p hp => ?_⟩
  obtain ⟨hb, -⟩ | ⟨p', hp', hm, hmem, hmw⟩ | ⟨p', a, hp', hm, ha, -, hmem, hmw⟩ | ⟨p', a, v, hp', hm, ha, -, hv, hmem, hmw⟩ :=
    memoryStage_next (step_memoryStage h)
  · cases hb.symm.trans hp
  all_goals obtain rfl : p' = p := Latch.inFlight.inj (hp'.symm.trans hp)
  · obtain ⟨hlw, hsw⟩ := memAccess_eq_pass.mp hm
    exact ⟨fun rt rs imm hi => absurd hi (hlw rt rs imm), fun rt rs imm hi => absurd hi (hsw rt rs imm),
      fun _ _ => ⟨hmw, hmem⟩⟩
  · refine ⟨fun rt rs imm _ => ⟨a, ha, hmem, hmw⟩, fun rt rs imm hi => ?_, fun hlw hsw => ?_⟩
    · simp [hi, memAccess] at hm
    · simp [memAccess_eq_pass.mpr ⟨hlw, hsw⟩] at hm
  · refine ⟨fun rt rs imm hi => ?_, fun rt rs imm _ => ⟨a, v, ha, hv, hmw, fun hwf k => ?_⟩, fun hlw hsw => ?_⟩
    · simp [hi, memAccess] at hm
    · rw [hmem]
      exact read_write hwf _ k v
    · simp [memAccess_eq_pass.mpr ⟨hlw, hsw⟩] at hm

/-! ### The address checks -/

/-- A misaligned address meets that error, in range or not (R56, R140). -/
theorem addressFault_of_misaligned {a : Word} (h : a.toNat % 4 ≠ 0) : addressFault a = some (.unalignedMemoryAccess a) := by
  simp [addressFault, aligned, h]

/-- An aligned address out of range meets that error (R57, R140). -/
theorem addressFault_of_out_of_range {a : Word} (h : a.toNat % 4 = 0) (hr : 4096 ≤ a.toNat) :
    addressFault a = some (.outOfRangeAddress a) := by
  simp [addressFault, aligned, inRange, Config.wordBytes, Config.dmemWords, h, hr]

/-- A record that makes an access raises the error of its address in Memory (R140). -/
theorem memoryStage_of_addressFault {s : State} {p : InFlight} {a : Word} {f : Fault} (hp : s.exMem = .inFlight p)
    (hm : memAccess p.instr ≠ .pass) (ha : p.address = some a) (hf : addressFault a = some f) : memoryStage s = .fault f := by
  cases hacc : memAccess p.instr with
  | load => rw [memoryStage_load hp hacc ha, checked_eq, hf]
  | store => simp [memoryStage, hp, hacc, storeInMemory, ha, checked_eq, hf]
  | pass => exact absurd hacc hm

/-- Settles O46: the error of the address is the pending one, and in a state of the invariant the step ends with it. -/
theorem addressChecksRaiseTheFault : Obligations.AddressChecksRaiseTheFault := by
  intro s p a hs hf hp hm ha
  have hstep : ∀ f, addressFault a = some f → step s = .fault f := fun f hfault =>
    (unfaultedStepIsNeverRefused s hs hf).2 f (pendingFault_eq_some.mpr (memoryStage_of_addressFault hp hm ha hfault))
  exact ⟨fun h => hstep _ (addressFault_of_misaligned h), fun h hr => hstep _ (addressFault_of_out_of_range h hr)⟩

/-! ### Drained states -/

/-- A cycle of a drained state without fault answers the state itself (R155). -/
theorem step_of_drained {s : State} (h : s.Drained) (hf : s.fault = none) : step s = .next s := by
  obtain ⟨hpc, hif, hid, hem, hmw⟩ := h
  refine step_next.mpr ⟨hf, _, _, _, _, _, writeBackStage_bubble hmw, memoryStage_bubble hem, executeStage_of_bubble hid, ?_⟩
  have hfetch := fetchStage_past_end hif hpc.ge
  obtain ⟨⟩ := s
  simp_all [publish, decodeStage]

/-- Settles O51: the fixed point, and one rule for each latch a `Bubble` leaves. -/
theorem drainedStateIsAFixedPoint : Obligations.DrainedStateIsAFixedPoint := by
  refine ⟨fun s => step_of_drained, fun s t h => ⟨fun hs hif => ?_, step_exMem_of_bubble h, step_memory_bubble h,
    step_writeBack_bubble h, fun hs => ?_, fun hs hpc => ?_⟩⟩
  · exact (step_idEx_of_proceed h (stallFlag_eq_false.mp hs)).trans hif
  · obtain ⟨-, hif, -⟩ := step_of_stall h (stallFlag_eq_true.mp hs)
    exact hif
  · exact (step_fetch_of_proceed h (stallFlag_eq_false.mp hs)).2 (List.getElem?_eq_none hpc)

end Sys2Proof.Proofs
end

section
/-! The passage of an instruction alone in the pipeline, state by state (R136, R137, R139, R143), and the whole passage of the
register-register instructions (44_alu_register.md). -/

namespace Sys2Proof.Proofs

open Sys2Proof.Machine Sys2Proof.Laws Sys2Proof.Statements

/-! ### The states of a passage -/

/-- With nothing left to fetch or decode, a step answers what Write-Back, Memory and Execute computed, between `Bubble`s (R68, R133). -/
theorem step_eq_next_past_end {s : State} {x' : Regs} {n' : Nat} {m' : Mem} {mw' em' : Latch} (hif : s.ifId = .bubble)
    (hpc : s.prog.length ≤ s.pc) (hf : s.fault = none) (hwb : writeBackStage s = .next (x', n'))
    (hmem : memoryStage s = .next (m', mw')) (hex : executeStage x' s = .next em') :
    step s = .next { s.emptied with x := x', retired := n', dmem := m', exMem := em', memWb := mw' } := by
  refine step_next.mpr ⟨hf, x', n', m', mw', em', hwb, hmem, hex, ?_⟩
  simp [publish, State.emptied, fetchStage_past_end hif hpc, decodeStage, hif, hf]

/-- An instruction alone in the pipeline leaves Execute as the record `p`, Memory as the record `q`, and is then committed and counted;
every other latch is a `Bubble` all the while. -/
theorem passes_of_alone {i : Instr} {s : State} {p q : InFlight} {m' : Mem} {x' : Regs} (hs : s.Alone i)
    (hexec : ExecutedFrom i s.x p)
    (hmem : memoryStage { s.emptied with exMem := .inFlight p } = .next (m', .inFlight q))
    (hcommit : commit q s.x = .next x') :
    Passes i s { s.emptied with exMem := .inFlight p } { s.emptied with dmem := m', memWb := .inFlight q }
      { s.emptied with dmem := m', x := x', retired := s.retired + retireCount q } := by
  obtain ⟨hid, hif, hem, hmw, hf, hpc⟩ := hs
  have hfill : fillOf i s.x s (.fetched i) = .next p :=
    (fillOf_congr _ fun k _ => (operand_of_bubbles hem hmw s.x k).trans (operand_reset s.x k).symm).trans hexec
  refine ⟨(exec_eq_step hid).trans ?_, ?_, ?_⟩
  · exact step_eq_next_past_end hif hpc hf (writeBackStage_bubble hmw) (memoryStage_bubble hem)
      ((executeStage_of_inFlight hid).mpr ⟨p, hfill, rfl⟩)
  · exact step_eq_next_past_end rfl hpc hf (writeBackStage_bubble rfl) hmem (executeStage_of_bubble rfl)
  · exact step_eq_next_past_end rfl hpc hf (writeBackStage_inFlight rfl hcommit) (memoryStage_bubble rfl)
      (executeStage_of_bubble rfl)

/-! ### The ALU instructions -/

/-- No instruction stalls behind one that does not load (R104). -/
theorem hazard_of_not_load {r : InFlight} (h : loadDest r.instr = none) (c : InFlight) :
    hazard (.inFlight c) (.inFlight r) = .proceed := by
  simp [hazard_inFlight, loadUse, h]

/-- A result in `EX_MEM` is what its destination is forwarded as, and register 0 is forwarded as 0 (R117, R118). -/
theorem forward_dest_of_exMem {p : InFlight} {d : Reg} {v : Word} (hd : dest p.instr = some d) (hv : p.result = some v)
    (x : Regs) (mw : Latch) : forward x (.inFlight p) mw d = .next (if d = 0 then 0#32 else v) := by
  by_cases hd0 : d = 0
  · rw [hd0, forward_zero, if_pos rfl]
  · rw [if_neg hd0]
    exact forward_of_producer_exMem hd0 (producerOf_eq_some.mpr ⟨rfl, hd⟩) hv

/-- An instruction with a destination that makes no memory access, and whose Execute sets the result `v`, makes the passage of an ALU
instruction. -/
theorem aluPassage_of_executedFrom {i : Instr} {d : Reg} {v : Regs → Word} (hd : dest i = some d) (hm : memAccess i = .pass)
    (hexec : ∀ x, ExecutedFrom i x { instr := i, result := some (v x) }) : AluPassage i d v := by
  intro s hs
  have hload : loadDest i = none := by
    by_contra hl
    cases hm.symm.trans (memAccess_eq_load.mpr (Option.ne_none_iff_exists'.mp hl))
  have hcount : retireCount { instr := i, result := some (v s.x) } = 1 := by
    refine if_neg fun hn => ?_
    cases hd.symm.trans (congrArg dest hn)
  refine ⟨_, _, _, passes_of_alone hs (hexec s.x) (memoryStage_pass rfl hm) (commit_of_result s.x hd rfl), rfl, rfl,
    by rw [hcount], fun r => readReg_writeReg s.x d r _, fun c => ?_, forward_dest_of_exMem hd rfl⟩
  obtain ⟨hid, -⟩ := hs
  rw [hid]
  exact hazard_of_not_load hload c

/-- An instruction whose Execute is `f` of two operands makes the passage that writes `f` of two registers. -/
theorem aluPassage_of_register_fillOf {i : Instr} {d rs rt : Reg} (f : Word → Word → Word) (hd : dest i = some d)
    (hm : memAccess i = .pass)
    (hfill : ∀ x s r, fillOf i x s r =
      (operand x s rs).bind fun a => (operand x s rt).bind fun b => .next { r with result := some (f a b) }) :
    AluPassage i d fun x => f (readReg x rs) (readReg x rt) := by
  refine aluPassage_of_executedFrom hd hm fun x => ?_
  rw [ExecutedFrom, hfill, operand_reset, operand_reset]
  rfl

/-- Settles O31: `ADD` is the wrapped sum of its two operands. -/
theorem addWritesTheWrappedSum : Obligations.AddWritesTheWrappedSum := fun rd rs rt =>
  ⟨encodeR_eq_wordR 0x20#6 rd rs rt, aluPassage_of_register_fillOf (fun a b => a + b) rfl rfl fun _ _ _ => rfl⟩

/-- Settles O32: `SUB` is the wrapped difference of its two operands, first minus second. -/
theorem subWritesTheWrappedDifference : Obligations.SubWritesTheWrappedDifference := fun rd rs rt =>
  ⟨encodeR_eq_wordR 0x22#6 rd rs rt, aluPassage_of_register_fillOf (fun a b => a - b) rfl rfl fun _ _ _ => rfl⟩

/-- Settles O33: `AND` is the bitwise and of its two operands. -/
theorem andWritesTheBitwiseAnd : Obligations.AndWritesTheBitwiseAnd := fun rd rs rt =>
  ⟨encodeR_eq_wordR 0x24#6 rd rs rt, aluPassage_of_register_fillOf (fun a b => a &&& b) rfl rfl fun _ _ _ => rfl⟩

/-- Settles O34: `OR` is the bitwise or of its two operands. -/
theorem orWritesTheBitwiseOr : Obligations.OrWritesTheBitwiseOr := fun rd rs rt =>
  ⟨encodeR_eq_wordR 0x25#6 rd rs rt, aluPassage_of_register_fillOf (fun a b => a ||| b) rfl rfl fun _ _ _ => rfl⟩

/-- Settles O35: `SLT` is the signed comparison of its two operands, which the model and the statement define alike. -/
theorem sltWritesTheSignedComparison : Obligations.SltWritesTheSignedComparison := fun rd rs rt =>
  ⟨encodeR_eq_wordR 0x2A#6 rd rs rt, aluPassage_of_register_fillOf Statements.setLess rfl rfl fun _ _ _ => rfl⟩

end Sys2Proof.Proofs
end

section
/-! The whole passage of the immediate ALU instructions (45_alu_immediate.md): the register-register passage with the second operand
replaced by the sign-extended immediate (R180). -/

namespace Sys2Proof.Proofs

open Sys2Proof.Machine Sys2Proof.Laws Sys2Proof.Statements

/-- An instruction whose Execute is `f` of one operand and the sign-extended immediate makes the passage that writes `f` of the register
and that immediate. -/
theorem aluPassage_of_immediate_fillOf {i : Instr} {d rs : Reg} {imm : Imm} (f : Word → Word → Word) (hd : dest i = some d)
    (hm : memAccess i = .pass)
    (hfill : ∀ x s r, fillOf i x s r = (operand x s rs).bind fun a => .next { r with result := some (f a (sext imm)) }) :
    AluPassage i d fun x => f (readReg x rs) (imm.signExtend 32) := by
  refine aluPassage_of_executedFrom hd hm fun x => ?_
  rw [ExecutedFrom, hfill, operand_reset]
  rfl

/-- Settles O36: `ADDI` is the wrapped sum of its operand and the immediate. -/
theorem addiWritesTheWrappedSum : Obligations.AddiWritesTheWrappedSum := fun rt rs imm =>
  ⟨encodeI_eq_wordI 0x08#6 rt rs imm, aluPassage_of_immediate_fillOf (fun a m => a + m) rfl rfl fun _ _ _ => rfl⟩

/-- Settles O37: `SLTI` is the signed comparison of its operand with the immediate, which the model and the statement define alike. -/
theorem sltiWritesTheSignedComparison : Obligations.SltiWritesTheSignedComparison := fun rt rs imm =>
  ⟨encodeI_eq_wordI 0x0A#6 rt rs imm, aluPassage_of_immediate_fillOf Statements.setLess rfl rfl fun _ _ _ => rfl⟩

end Sys2Proof.Proofs
end

section
/-! `LW` and `SW` (46_load_store.md): the whole passage of each alone in the pipeline, the error of its address, and a word of data memory
from the store that wrote it to the load that reads it (R190 to R194). -/

namespace Sys2Proof.Proofs

open Sys2Proof.Machine Sys2Proof.Laws Sys2Proof.Statements

/-! ### Execute, and the error of the address in the Memory cycle -/

/-- The cycle that executes an instruction alone in the pipeline leaves its record in `EX_MEM`, whatever Memory will make of it. -/
theorem exec_of_alone {i : Instr} {s : State} {p : InFlight} (hs : s.Alone i) (hexec : ExecutedFrom i s.x p) :
    exec i s = .next { s.emptied with exMem := .inFlight p } := by
  obtain ⟨hid, hif, hem, hmw, hf, hpc⟩ := hs
  have hfill : fillOf i s.x s (.fetched i) = .next p :=
    (fillOf_congr _ fun k _ => (operand_of_bubbles hem hmw s.x k).trans (operand_reset s.x k).symm).trans hexec
  exact (exec_eq_step hid).trans (step_eq_next_past_end hif hpc hf (writeBackStage_bubble hmw) (memoryStage_bubble hem)
    ((executeStage_of_inFlight hid).mpr ⟨p, hfill, rfl⟩))

/-- An `LW` or `SW` alone in the pipeline whose address is at fault executes, and its Memory cycle ends with that fault (R140). -/
theorem exec_then_fault_of_alone {i : Instr} {s : State} {p : InFlight} {a : Word} {f : Fault} (hs : s.Alone i)
    (hexec : ExecutedFrom i s.x p) (hm : memAccess i ≠ .pass) (ha : p.address = some a) (hfault : addressFault a = some f) :
    ∃ t, exec i s = .next t ∧ step t = .fault f := by
  refine ⟨_, exec_of_alone hs hexec, ?_⟩
  obtain ⟨-, -, -, -, hf, -⟩ := hs
  exact step_of_memoryStage_fault hf (writeBackStage_bubble rfl)
    (memoryStage_of_addressFault rfl (hexec.instr_eq.symm ▸ hm) ha hfault)

/-! ### Memory at a valid address -/

section

variable {s : State} {p : InFlight} {a : Word} (hp : s.exMem = .inFlight p) (ha : p.address = some a) (h4 : a.toNat % 4 = 0)
  (hr : a.toNat < 4096)

include h4 hr in
/-- A checked access to an address that is aligned and in range is made (R140). -/
theorem checked_of_valid {α : Type} (k : Result α) : checked a k = k := by
  rw [checked_eq, (addressFault_eq_none a).mpr ⟨h4, hr⟩]

include hp ha h4 hr

/-- An `LW` of a valid address reads its word in Memory (R141). -/
theorem memoryStage_load_of_valid (hm : memAccess p.instr = .load) :
    memoryStage s = .next (s.dmem, .inFlight { p with result := some (memRead s.dmem a) }) :=
  (memoryStage_load hp hm ha).trans (checked_of_valid h4 hr _)

/-- An `SW` to a valid address writes its word in Memory (R142). -/
theorem memoryStage_store_of_valid {v : Word} (hm : memAccess p.instr = .store) (hv : p.storeValue = some v) :
    memoryStage s = .next (memWrite s.dmem a v, .inFlight p) :=
  (memoryStage_store hp hm ha hv).trans (checked_of_valid h4 hr _)

end

/-! ### `LW` (R192) -/

/-- The record an `LW` leaves Execute with: its effective address, and no result yet (R146). -/
theorem executedFrom_lw (rt rs : Reg) (imm : Imm) (x : Regs) :
    ExecutedFrom (.lw rt rs imm) x { instr := .lw rt rs imm, address := some (readReg x rs + imm.signExtend 32) } := by
  simp only [ExecutedFrom, fillOf, operand_reset, bind_next]
  rfl

/-- Behind an `LW` the detector stalls exactly the readers of its non-zero destination (R101). -/
theorem hazard_lw_eq_stall {p c : InFlight} {rt rs : Reg} {imm : Imm} (hp : p.instr = .lw rt rs imm) :
    hazard (.inFlight c) (.inFlight p) = .stall ↔ rt ≠ 0 ∧ rt ∈ srcs c.instr := by
  simp [hazard_inFlight, loadUse_iff, hp, loadDest]

/-- Settles O38: the passage by its three states, each fault as the one the address meets, the hazard by the load-use condition. -/
theorem lwLoadsTheWordOrFaults : Obligations.LwLoadsTheWordOrFaults := by
  refine fun rt rs imm => ⟨encodeI_eq_wordI 0x23#6 rt rs imm, ?_⟩
  rintro s ea hs rfl
  have hexec := executedFrom_lw rt rs imm s.x
  refine ⟨fun h4 hr => ?_, fun h4 => ?_, fun h4 hr => ?_, fun c => ?_⟩
  · refine ⟨_, _, _, passes_of_alone hs hexec (memoryStage_load_of_valid rfl rfl h4 hr rfl) (commit_of_result s.x rfl rfl),
      rfl, rfl, rfl, fun r => readReg_writeReg s.x rt r _, fun x => ?_⟩
    by_cases hrt : rt = 0
    · rw [hrt, forward_zero, if_pos rfl]
    · rw [if_neg hrt]
      exact forward_of_memWb hrt rfl rfl
  · exact exec_then_fault_of_alone hs hexec nofun rfl (addressFault_of_misaligned h4)
  · exact exec_then_fault_of_alone hs hexec nofun rfl (addressFault_of_out_of_range h4 hr)
  · obtain ⟨hid, -⟩ := hs
    rw [hid]
    exact hazard_lw_eq_stall rfl

/-! ### `SW` (R193) -/

/-- The record an `SW` leaves Execute with: its effective address and the word to store (R146). -/
theorem executedFrom_sw (rt rs : Reg) (imm : Imm) (x : Regs) :
    ExecutedFrom (.sw rt rs imm) x
      { instr := .sw rt rs imm, address := some (readReg x rs + imm.signExtend 32), storeValue := some (readReg x rt) } := by
  simp only [ExecutedFrom, fillOf, operand_reset, bind_next]
  rfl

/-- A record without a destination in `EX_MEM` is no forwarding source: it forwards as a `Bubble` does (R116, R124). -/
theorem forward_of_no_dest {p : InFlight} (hd : dest p.instr = none) (x : Regs) (mw : Latch) (r : Reg) :
    forward x (.inFlight p) mw r = forward x .bubble mw r := by
  simp [forward, producerOf, hd]

/-- Settles O39: the passage by its three states, the hazard by the two sources of an `SW`, each fault as the one the address meets. -/
theorem swStoresTheWordOrFaults : Obligations.SwStoresTheWordOrFaults := by
  refine fun rt rs imm => ⟨encodeI_eq_wordI 0x2B#6 rt rs imm, ?_⟩
  rintro s ea hs rfl
  have hexec := executedFrom_sw rt rs imm s.x
  refine ⟨fun h4 hr => ?_, fun p q rs' imm' hp => ?_, fun h4 => ?_, fun h4 hr => ?_⟩
  · exact ⟨_, _, _,
      passes_of_alone hs hexec (memoryStage_store_of_valid rfl rfl h4 hr rfl rfl) (commit_of_no_dest s.x rfl),
      rfl, rfl, rfl, rfl, rfl, fun hwf k => read_write hwf _ k _, forward_of_no_dest rfl⟩
  · obtain ⟨hid, -⟩ := hs
    rw [hid, hazard_lw_eq_stall hp]
    simp [InFlight.fetched, srcs]
  · exact exec_then_fault_of_alone hs hexec nofun rfl (addressFault_of_misaligned h4)
  · exact exec_then_fault_of_alone hs hexec nofun rfl (addressFault_of_out_of_range h4 hr)

/-! ### A store, and a later load of its word (R194) -/

/-- An `SW` in Memory writes its word at its address (R142). -/
theorem step_dmem_of_store {s t : State} (h : step s = .next t) {p : InFlight} {a v : Word} (hp : s.exMem = .inFlight p)
    (hm : memAccess p.instr = .store) (ha : p.address = some a) (hv : p.storeValue = some v) : t.dmem = memWrite s.dmem a v := by
  have hmem := (memoryStage_store hp hm ha hv).symm.trans (step_memoryStage h)
  obtain ⟨-, hk⟩ := checked_next.mp hmem
  exact (Prod.mk.inj (Host.Outcome.next.inj hk)).1.symm

/-- Cycles that do not store to the word of an address leave that word as it was. -/
theorem memRead_of_noStoreTo {n : Nat} {a : Word} {t u : State} (h : RunsTo n t u) (hno : NoStoreTo a n t) :
    memRead u.dmem a = memRead t.dmem a := by
  induction n generalizing u with
  | zero => rw [runsTo_zero.mp h]
  | succ n ih =>
    obtain ⟨r, hr, hstep⟩ := runsTo_snoc.mp h
    calc memRead u.dmem a = memRead r.dmem a := (step_frame hstep).mem _ fun b => hno n r b n.lt_succ_self hr
      _ = memRead t.dmem a := ih hr fun m r' b hm => hno m r' b (Nat.lt_succ_of_lt hm)

/-- Settles O45: the load reads the word of its address, which is the stored one, kept by the cycles in between. -/
theorem storeThenLoadYieldsTheWord : Obligations.StoreThenLoadYieldsTheWord := by
  intro s t u w p q a v n hwf hp hst hpa hv hs hrun hno hq hld hqa hu
  have hword : memRead u.dmem a = v :=
    calc memRead u.dmem a = memRead t.dmem a := memRead_of_noStoreTo hrun hno
      _ = memRead (memWrite s.dmem a v) a := by rw [step_dmem_of_store hs hp hst hpa hv]
      _ = v := (read_write hwf _ _ v).trans (if_pos rfl)
  rw [step_memWb_of_load hu hq hld hqa, hword]

end Sys2Proof.Proofs
end

section
/-! `NOP` (47_nop_bubble.md): its whole passage alone in the pipeline, and why the detector never sees it (R200). -/

namespace Sys2Proof.Proofs

open Sys2Proof.Machine Sys2Proof.Laws Sys2Proof.Statements

/-- An instruction that reads no register is never stalled (R101). -/
theorem hazard_of_no_srcs {c : InFlight} (h : srcs c.instr = []) (l : Latch) : hazard (.inFlight c) l = .proceed := by
  cases l with
  | bubble => exact hazard_bubble_right _
  | inFlight p =>
    have hno : ¬loadUse p.instr c.instr = true := by simp [loadUse_iff, h]
    rw [hazard_inFlight, if_neg hno]

/-- An instruction that does not load stalls nothing behind it, a `Bubble` no more than an instruction (R101, R104). -/
theorem hazard_latch_of_not_load {p : InFlight} (h : loadDest p.instr = none) (l : Latch) : hazard l (.inFlight p) = .proceed := by
  cases l with
  | bubble => exact hazard_bubble_left _
  | inFlight c => exact hazard_of_not_load h c

/-- The record a `NOP` leaves Execute with: no field set (R143, R200). -/
theorem executedFrom_nop (x : Regs) : ExecutedFrom .nop x { instr := .nop } := rfl

/-- Settles O40: a `NOP` makes no access, has no destination and counts 0; it has no source and loads nothing. -/
theorem nopChangesNothingAndIsNotCounted : Obligations.NopChangesNothingAndIsNotCounted := by
  refine ⟨rfl, fun s hs => ⟨_, _, _,
    passes_of_alone hs (executedFrom_nop s.x) (memoryStage_pass rfl rfl) (commit_of_no_dest s.x rfl),
    rfl, rfl, rfl, fun l => ?_, forward_of_no_dest rfl⟩⟩
  obtain ⟨hid, -⟩ := hs
  rw [hid]
  exact ⟨hazard_latch_of_not_load rfl l, hazard_of_no_srcs rfl l⟩

end Sys2Proof.Proofs
end

section
/-! How a step faults or is refused (R140, R244, R246), and the invariant under every host operation (R211 to R220). -/

namespace Sys2Proof.Proofs

open Sys2Proof.Machine Sys2Proof.Laws

/-! ### A step that does not answer -/

/-- The Execute step never faults (R143). -/
theorem executeStage_ne_fault (x : Regs) (s : State) (f : Fault) : executeStage x s ≠ .fault f := by
  unfold executeStage
  cases s.idEx with
  | bubble => simp
  | inFlight r => simp [bind_eq_fault, fillOf_ne_fault]

/-- A step faults only with no fault recorded, and with the error its Memory step raises (R140, R243). -/
theorem pendingFault_of_step_fault {s : State} {f : Fault} (h : step s = .fault f) :
    s.fault = none ∧ pendingFault s = some f := by
  rw [step_eq_cycleWith, cycleWith] at h
  cases hf : s.fault with
  | some g => simp [hf] at h
  | none =>
    simp only [hf, bind_eq_fault, writeBackStage_ne_fault, executeStage_ne_fault] at h
    obtain ⟨-, hm⟩ : _ ∧ memoryStage s = .fault f := by simpa using h
    exact ⟨rfl, pendingFault_eq_some.mpr hm⟩

/-- A recorded fault refuses the step, in every state (R246). -/
theorem step_of_recorded_fault {s : State} {f : Fault} (h : s.fault = some f) : step s = .refused (.faulted f) := by
  simp [step_eq_cycleWith, cycleWith, h]

/-! ### The invariant -/

/-- A checked access to what does not fault faults only with the error of its address. -/
theorem addressFault_of_checked_fault {α : Type} {a : Word} {k : Result α} {f : Fault} (h : checked a k = .fault f)
    (hk : k ≠ .fault f) : addressFault a = some f := by
  rw [checked_eq] at h
  cases hfault : addressFault a <;> simp_all

/-- A Memory step that raises does so for the address of an `LW` or `SW` in `EX_MEM`, whatever data memory holds (R140, R243). -/
theorem memoryStage_fault {s : State} {f : Fault} :
    memoryStage s = .fault f ↔ ∃ p a, s.exMem = .inFlight p ∧ memAccess p.instr ≠ .pass ∧ p.address = some a ∧
      addressFault a = some f := by
  constructor
  · intro h
    cases hp : s.exMem with
    | bubble => simp [memoryStage_bubble hp] at h
    | inFlight p =>
      cases hm : memAccess p.instr with
      | pass => simp [memoryStage_pass hp hm] at h
      | load =>
        simp only [memoryStage, hp, hm, loadInMemory] at h
        cases ha : p.address with
        | none => simp [ha] at h
        | some a =>
          rw [ha] at h
          exact ⟨p, a, rfl, by simp [hm], ha, addressFault_of_checked_fault h (by simp)⟩
      | store =>
        simp only [memoryStage, hp, hm, storeInMemory] at h
        cases ha : p.address with
        | none => simp [ha] at h
        | some a =>
          rw [ha] at h
          exact ⟨p, a, rfl, by simp [hm], ha, addressFault_of_checked_fault h (by cases p.storeValue <;> simp)⟩
  · rintro ⟨p, a, hp, hm, ha, hfault⟩
    exact memoryStage_of_addressFault hp hm ha hfault

/-- The error pending depends on the record in `EX_MEM` only (R140). -/
theorem pendingFault_congr {s t : State} (h : s.exMem = t.exMem) : pendingFault s = pendingFault t :=
  Option.ext fun f => by simp only [pendingFault_eq_some, memoryStage_fault, h]

/-- After a `reset()` the program is as if just loaded (R218, R219). -/
theorem loaded_afterReset {s : State} (h : s.prog.length ≤ Config.progMax) : s.afterReset.Loaded :=
  ⟨⟨rfl, rfl, rfl, rfl⟩, rfl, rfl, rfl, h, rfl, rfl⟩

/-- Every change the host can make keeps the invariant: a load and a reset leave a loaded state, and a poke touches nothing that the
latches or the recorded fault are held to. -/
theorem inv_hostKeeps : HostKeeps State.Inv where
  step := stepKeepsTheInvariant
  fault _ _ hs h := { hs with faultFromExMem := .inr (pendingFault_of_step_fault h).2.symm }
  load _ _ hs hlen := inv_of_loaded ⟨⟨rfl, rfl, rfl, rfl⟩, rfl, rfl, rfl, hlen, hs.zero, hs.mem⟩
  reset _ hs := inv_of_loaded (loaded_afterReset hs.progBound)
  pokeReg s i v hs := { hs with zero := (writeReg_zero_word s.x i v).trans hs.zero }
  pokeMem _ _ v hs hk :=
    { hs with
      mem := write_keeps_wf hs.mem hk v
      faultFromExMem := hs.faultFromExMem.imp_right fun h => h.trans (pendingFault_congr (by rfl)) }

/-- Settles O14: the induction over host operations, for the invariant. -/
theorem hostCallsKeepTheInvariant : Obligations.HostCallsKeepTheInvariant :=
  fun c op _ hs => hostCallWith_keeps inv_hostKeeps c op hs

end Sys2Proof.Proofs
end

section
/-! `load` (R211 to R214): what an accepted one leaves, which slot refuses the others, and that nothing else changes the program (R66). -/

namespace Sys2Proof.Proofs

open Sys2Proof.Machine Sys2Proof.Laws

/-! ### An accepted load -/

/-- What a load leaves, element by element, with either value of `LOAD_CLEARS_ARCH` (R211, R214). -/
theorem afterLoad_spec (c : Bool) (s : State) (prog : List Instr) :
    (s.afterLoad c prog).prog = prog ∧ (s.afterLoad c prog).pc = 0 ∧ (s.afterLoad c prog).retired = 0 ∧
    (s.afterLoad c prog).fault = none ∧ (s.afterLoad c prog).PipelineEmpty ∧
    (s.afterLoad c prog).arch = if c then State.reset.arch else s.arch := by
  cases c <;> exact ⟨rfl, rfl, rfl, rfl, ⟨rfl, rfl, rfl, rfl⟩, rfl⟩

/-! ### The program between loads -/

/-- `step` keeps the program, whatever the cycle's outcome (R215). -/
theorem hostStep_prog (s : State) : (hostStep s).1.prog = s.prog := by
  cases h : step s with
  | next t => simpa [hostStep_of_next h] using (step_frame h).prog
  | fault f => simp [hostStep_of_fault h]
  | refused q => simp [hostStep_of_refused h]

/-- The loop of `run` keeps the program, by induction on the cycles left (R216). -/
theorem runFrom_prog (more done : Nat) (last : Snapshot) (s : State) : (runFrom done last s more).1.prog = s.prog := by
  induction more generalizing done last s with
  | zero => rfl
  | succ more ih =>
    cases h : step s with
    | next t => rw [runFrom_of_next h, ih, (step_frame h).prog]
    | fault f => rw [runFrom_of_fault h, recordFault_prog]
    | refused q => simp [runFrom, h]

/-- `run` keeps the program (R216). -/
theorem hostRun_prog (n : Int) (s : State) : (hostRun n s).1.prog = s.prog := by
  unfold hostRun
  split
  · rfl
  · split
    · rfl
    · exact runFrom_prog _ _ _ s

/-- A poke keeps the program when the poked state has it. -/
theorem poked_prog {inRange : Bool} {s t : State} (h : t.prog = s.prog) : (poked inRange s t).1.prog = s.prog :=
  poked_keeps (P := fun u => u.prog = s.prog) rfl fun _ => h

/-- Settles O8: an accepted load leaves `afterLoad`; the other operations keep the program one by one. -/
theorem loadReplacesTheProgramAndNothingElseDoes : Obligations.LoadReplacesTheProgramAndNothingElseDoes := by
  constructor
  · intro c rs is s h
    obtain ⟨hprog, hpc, hret, hfault, hempty, harch⟩ := afterLoad_spec c s is
    exact ⟨s.afterLoad c is, by simp only [hostCallWith, hostLoad, h], hprog, hpc, hret, hfault, hempty,
      fun hc => by simpa [hc] using harch, fun hc => by simpa [hc] using harch⟩
  · intro c op s hrecords hwords
    cases op with
    | load rs => exact absurd rfl (hrecords rs)
    | loadWords ws => exact absurd rfl (hwords ws)
    | step => exact hostStep_prog s
    | run n => exact hostRun_prog n s
    | reset => rfl
    | pokeReg i v => exact poked_prog rfl
    | pokeMem k v => exact poked_prog rfl

/-! ### Which slot refuses a load (R212) -/

/-- A well-formed record resolves. -/
theorem resolve_of_wellFormed {r : Record} (h : r.WellFormed) : resolve r = .ok (instrOfRecord r) :=
  resolve_eq_ok_iff.mpr ⟨h, rfl⟩

/-- Elements that all resolve, but reach past `PROG_MAX`, are malformed at slot `PROG_MAX` (R212, log entry 9). -/
theorem resolveFrom_of_too_long {α : Type} {res : α → Except RecordError Instr} {k : Nat} {as : List α}
    (h : ∀ a ∈ as, ∃ i, res a = .ok i) (hk : k ≤ Config.progMax) (hlen : Config.progMax < k + as.length) :
    resolveFrom res k as = .error (.malformedInstruction Config.progMax) := by
  induction as generalizing k with
  | nil => exact absurd hlen (Nat.not_lt_of_le hk)
  | cons a as ih =>
    obtain ⟨⟨i, hi⟩, hrest⟩ := List.forall_mem_cons.mp h
    rw [List.length_cons] at hlen
    rw [resolveFrom]
    split_ifs with hmax
    · rw [Nat.le_antisymm hk hmax]
    · rw [hi, ih hrest (by omega) (by omega)]

/-- Settles O9: the first slot that fails, a sequence past `PROG_MAX`, and every other sequence of well-formed records. -/
theorem loadRefusalNamesTheLowestSlot : Obligations.LoadRefusalNamesTheLowestSlot := by
  refine ⟨fun c pre post r e s hpre hlen he => ?_, fun c rs s hrs hlen => ⟨Config.progMax, ?_⟩,
    fun c rs s hrs hlen => ⟨rs.map instrOfRecord, List.length_map _, ?_⟩⟩
  · have hres : resolveRecords (pre ++ r :: post) = .error (loadErrorAt (0 + pre.length) e) :=
      resolveFrom_append_error (fun q hq => ⟨_, resolve_of_wellFormed (hpre q hq)⟩) (by rwa [Nat.zero_add]) he
    rw [Nat.zero_add] at hres
    cases e <;> simp only [hostCallWith, hostLoad, hres, loadErrorAt]
  · have hres : resolveRecords rs = .error (.malformedInstruction Config.progMax) :=
      resolveFrom_of_too_long (fun q hq => ⟨_, resolve_of_wellFormed (hrs q hq)⟩) (Nat.zero_le _) (by rwa [Nat.zero_add])
    simp only [hostCallWith, hostLoad, hres]
  · have hmap : rs.map resolve = (rs.map instrOfRecord).map .ok := by
      rw [List.map_map]
      exact List.map_congr_left fun q hq => resolve_of_wellFormed (hrs q hq)
    have hres : resolveRecords rs = .ok (rs.map instrOfRecord) :=
      resolveFrom_of_all_ok hmap (by rwa [Nat.zero_add, List.length_map])
    simp only [hostCallWith, hostLoad, hres]

end Sys2Proof.Proofs
end

section
/-! `run`, `reset` and the replies of `step` (R215, R216, R218, R222). -/

namespace Sys2Proof.Proofs

open Sys2Proof.Machine Sys2Proof.Laws Sys2Proof.Statements

/-! ### `run` (R216) -/

/-- The loop of `run` goes on from the state its first cycles reach, when they all answer. -/
theorem runFrom_of_runsTo {k : Nat} {s t : State} (h : RunsTo k s t) (done more : Nat) (last : Snapshot) :
    ∃ last', runFrom done last s (k + more) = runFrom (done + k) last' t more := by
  induction k generalizing s done last with
  | zero =>
    obtain rfl := runsTo_zero.mp h
    exact ⟨last, by simp⟩
  | succ k ih =>
    obtain ⟨u, hu, hut⟩ := runsTo_succ.mp h
    obtain ⟨last', h'⟩ := ih hut (done + 1) (u.snapshot (stallFlag s))
    refine ⟨last', ?_⟩
    rw [Nat.add_right_comm, runFrom_of_next hu, h', Nat.add_assoc done, Nat.add_comm 1]

/-- A run whose next cycle is not refused began with no fault recorded (R246). -/
theorem fault_eq_none_of_runsTo {k : Nat} {s t : State} (h : RunsTo k s t) (ht : ∀ q, step t ≠ .refused q) : s.fault = none := by
  cases k with
  | zero =>
    obtain rfl := runsTo_zero.mp h
    cases hf : s.fault with
    | none => rfl
    | some f => exact absurd (step_of_recorded_fault hf) (ht _)
  | succ k =>
    obtain ⟨u, hu, -⟩ := runsTo_succ.mp h
    exact (step_next.mp hu).1

/-- With no fault recorded, `run` of a positive count whose first `k` cycles answer goes on from the state they reach. -/
theorem hostCall_run_of_runsTo {k more : Nat} {s t : State} (h : RunsTo k s t) (ht : ∀ q, step t ≠ .refused q) :
    ∃ last, hostCall (.run (k + (more + 1) : Nat)) s = runFrom k last t (more + 1) := by
  obtain ⟨last, hrun⟩ := runFrom_of_runsTo h 0 (more + 1) (s.snapshot false)
  have hcall : hostCall (.run (k + (more + 1) : Nat)) s = runFrom 0 (s.snapshot false) s (k + (more + 1)) :=
    hostRun_of_pos (fault_eq_none_of_runsTo h ht) (by omega)
  exact ⟨last, by rw [hcall, hrun, Nat.zero_add]⟩

/-- A count that is not positive is refused, as a bad argument when no fault is recorded (R216, U8). -/
theorem hostRun_of_nonpos {n : Int} (hn : n ≤ 0) (s : State) :
    Refuses s (hostRun n s) ∧ (s.fault = none → hostRun n s = (s, .badArgument)) := by
  cases hf : s.fault with
  | none => simp [Refuses, hostRun, hf, hn]
  | some f => simp [Refuses, hostRun, hf]

/-- Settles O50: the loop of `run` takes the cycles that answer one by one; the last one, or the one that faults, gives the reply. -/
theorem runIsRepeatedStep : Obligations.RunIsRepeatedStep := by
  refine ⟨fun n s hn => hostRun_of_nonpos hn s, fun n s r t hr ht => ?_, fun n k s t f hk ht hf => ?_,
    fun m n s t u hst htu => runsTo_add.mpr ⟨t, hst, htu⟩⟩
  · obtain ⟨last, h⟩ := hostCall_run_of_runsTo (more := 0) hr (by simp [ht])
    rw [h, runFrom_of_next ht]
    rfl
  · obtain ⟨more, rfl⟩ := Nat.exists_eq_add_of_lt hk
    obtain ⟨last, h⟩ := hostCall_run_of_runsTo (more := more) ht (by simp [hf])
    rw [Nat.add_assoc, h, runFrom_of_fault hf]
    rfl

/-! ### `reset` (R218) -/

/-- Every register reads 0 at reset. -/
theorem readReg_reset (r : Reg) : readReg State.reset.x r = 0#32 := by
  simp [readReg, State.reset]

/-- Settles O11: the reset state element by element, with the program kept. -/
theorem resetClearsEverythingButTheProgram : Obligations.ResetClearsEverythingButTheProgram := fun s =>
  ⟨s.afterReset, rfl, readReg_reset, fun _ => rfl, rfl, rfl, rfl, rfl, rfl, rfl, rfl, rfl⟩

/-! ### The reply of `step` (R215, R222) -/

/-- The states before and after a cycle show whether it stalled: a `Bubble` was inserted while `IF_ID` and `PC` held (R46, D25). -/
theorem stall_iff_of_step {s t : State} (h : step s = .next t) :
    hazard s.ifId s.idEx = .stall ↔ t.idEx = .bubble ∧ t.ifId = s.ifId ∧ t.ifId ≠ .bubble ∧ t.pc = s.pc := by
  constructor
  · intro hz
    obtain ⟨hid, hif, hpc⟩ := step_of_stall h hz
    obtain ⟨c, p, hc, -, -⟩ := hazard_eq_stall.mp hz
    exact ⟨hid, hif, by simp [hif, hc], hpc⟩
  · rintro ⟨hid, hif, hne, -⟩
    cases hz : hazard s.ifId s.idEx with
    | stall => rfl
    | proceed => exact absurd (hif.trans ((step_idEx_of_proceed h hz).symm.trans hid)) hne

/-- Settles O58: the snapshot of the published state, with the detector's decision in the cycle just made. -/
theorem stepRepliesTheNewSnapshot : Obligations.StepRepliesTheNewSnapshot := by
  refine ⟨fun s t h => ⟨t.snapshot (stallFlag s), hostStep_of_next h, rfl, rfl, rfl, rfl, rfl, rfl, rfl, rfl, rfl, ?_, ?_⟩,
    fun s f h => hostStep_of_fault h, fun s f h => hostStep_of_refused (step_of_recorded_fault h)⟩
  · exact stallFlag_eq_true
  · exact stallFlag_eq_true.trans (stall_iff_of_step h)

end Sys2Proof.Proofs
end

section
/-! The pokes (R220) and the port-level view (R230, R231). -/

namespace Sys2Proof.Proofs

open Sys2Proof.Machine Sys2Proof.Laws

/-! ### The pokes (R220) -/

/-- With no fault recorded, a poke with its index in range is made. -/
theorem poked_of_inRange {inRange : Bool} {s t : State} (hf : s.fault = none) (h : inRange = true) :
    poked inRange s t = (t, .done) := by
  simp [poked, hf, h]

/-- With no fault recorded, a poke with its index out of range is a bad argument and changes nothing. -/
theorem poked_of_out_of_range {inRange : Bool} {s t : State} (hf : s.fault = none) (h : inRange = false) :
    poked inRange s t = (s, .badArgument) := by
  simp [poked, hf, h]

/-- While a fault is recorded no poke changes anything (R225). -/
theorem poked_of_recorded_fault {s : State} {f : Fault} (h : s.fault = some f) (inRange : Bool) (t : State) :
    (poked inRange s t).1 = s := by
  simp [poked, h]

/-- With no fault recorded, a poke of a register's index writes that register (R220, R22). -/
theorem pokeReg_val {s : State} (hf : s.fault = none) (i : Reg) (v : Word) :
    pokeReg i.val v s = ({ s with x := writeReg s.x i v }, .done) := by
  have hi : Fin.ofNat 32 (i.val : Int).toNat = i := Fin.ext (Nat.mod_eq_of_lt i.isLt)
  rw [pokeReg, hi]
  exact poked_of_inRange hf (by simp)

/-- Settles O52: a poke is one register or memory write when its index is in range, and nothing otherwise. -/
theorem pokeSetsOneWord : Obligations.PokeSetsOneWord := by
  intro s v hf
  refine ⟨fun i => ⟨{ s with x := writeReg s.x i v }, pokeReg_val hf i v, rfl, fun r => ?_⟩,
    fun k hk => ⟨{ s with dmem := Mem.write s.dmem k v }, ?_, rfl, fun hwf l => read_write hwf k l v⟩,
    fun i hi => ?_, fun k hk => ?_⟩
  · rw [readReg_writeReg]
    by_cases hr : r = i <;> simp [hr]
  · exact poked_of_inRange hf (by simp; omega)
  · exact poked_of_out_of_range hf (by simp; omega)
  · exact poked_of_out_of_range hf (by simp; omega)

/-! ### The write ports (R230) -/

section

variable {p : PortIn}

/-- The register write port at rest. -/
theorem portPokeReg_of_none (h : p.pokeReg = none) (s : State) : portPokeReg p s = s := by simp [portPokeReg, h]

/-- The register write port makes the host's register poke. -/
theorem portPokeReg_of_some {i : Reg} {v : Word} (h : p.pokeReg = some (i, v)) (s : State) :
    portPokeReg p s = (hostCall (.pokeReg i.val v) s).1 := by
  simp [portPokeReg, h, hostCall, hostCallWith]

/-- The memory write port at rest. -/
theorem portPokeMem_of_none (h : p.pokeMem = none) (s : State) : portPokeMem p s = s := by simp [portPokeMem, h]

/-- The memory write port makes the host's memory poke. -/
theorem portPokeMem_of_some {k : Fin 1024} {w : Word} (h : p.pokeMem = some (k, w)) (s : State) :
    portPokeMem p s = (hostCall (.pokeMem k.val w) s).1 := by
  simp [portPokeMem, h, hostCall, hostCallWith]

end

/-- With `step_en` low the write ports make the register poke, then the memory poke. -/
theorem portPoke_of_not_stepEn {p : PortIn} (h : p.stepEn = false) (s : State) :
    portPoke p s = portPokeMem p (portPokeReg p s) := by
  simp [portPoke, h]

/-- With `step_en` high the write ports do nothing. -/
theorem portPoke_of_stepEn {p : PortIn} (h : p.stepEn = true) (s : State) : portPoke p s = s := by
  simp [portPoke, h]

/-- While a fault is recorded the write ports do nothing (log entry 10). -/
theorem portPoke_of_recorded_fault {s : State} {f : Fault} (h : s.fault = some f) (p : PortIn) : portPoke p s = s := by
  have hreg : portPokeReg p s = s := by
    cases hp : p.pokeReg with
    | none => exact portPokeReg_of_none hp s
    | some iv => rw [portPokeReg_of_some hp, hostCall, hostCallWith, pokeReg, poked_of_recorded_fault h]
  have hmem : portPokeMem p s = s := by
    cases hp : p.pokeMem with
    | none => exact portPokeMem_of_none hp s
    | some kw => rw [portPokeMem_of_some hp, hostCall, hostCallWith, pokeMem, poked_of_recorded_fault h]
  rw [portPoke, hreg, hmem, ite_self]

/-! ### One edge (R230, R231) -/

/-- An edge that only steps is `portStep`. -/
theorem portEdge_of_step {p : PortIn} (hrst : p.rst = false) (hload : p.progLoad = false) (hen : p.stepEn = true) (s : State) :
    portEdge p s = portStep p s := by
  simp [portEdge, hrst, hload, hen]

/-- An edge that neither resets, loads nor steps makes the pokes asserted. -/
theorem portEdge_of_poke {p : PortIn} (hrst : p.rst = false) (hload : p.progLoad = false) (hen : p.stepEn = false) (s : State) :
    portEdge p s = some (portPokeMem p (portPokeReg p s)) := by
  simp [portEdge, hrst, hload, hen, portPoke_of_not_stepEn hen]

/-- An edge of `prog_load` with a store of legal words, nothing competing: the pokes asserted, then the load. -/
theorem portEdge_of_progLoad {p : PortIn} {s : State} {prog : List Instr} (hrst : p.rst = false) (hload : p.progLoad = true)
    (hstore : resolveWords p.instrStore = .ok prog) (hc : loadCompetes p s = false) :
    portEdge p s = some (hostCallWith false (.loadWords p.instrStore) (portPoke p s)).1 := by
  simp [portEdge, hrst, hload, hc, portLoad, hstore, hostCallWith, hostLoad, State.afterLoad]

/-- A store with the length of the program and, inside it, the encoding of the instruction at `PC` answers as the program does. -/
theorem storeAnswers_of_encode {p : PortIn} {s : State} (hlen : p.imemLen.toNat = s.prog.length)
    (hdata : ∀ i, s.prog[s.pc]? = some i → p.imemData = encode i) : storeAnswers p s = true := by
  cases hi : s.prog[s.pc]? with
  | none => simp [storeAnswers, hlen, hi]
  | some i => simp [storeAnswers, hlen, hi, hdata i hi, resolveWord, decodeOfEncodeIsTheInstruction i]

/-- An edge with `step_en` does the same without its pokes. -/
theorem portEdge_without_pokes {p : PortIn} (h : p.stepEn = true) (s : State) :
    portEdge p s = portEdge { p with pokeReg := none, pokeMem := none } s := by
  have hpoke : portPoke { p with pokeReg := none, pokeMem := none } s = s :=
    portPoke_of_stepEn (p := { p with pokeReg := none, pokeMem := none }) h s
  have hc : loadCompetes p s = loadCompetes { p with pokeReg := none, pokeMem := none } s := by
    cases hf : s.fault <;> simp [loadCompetes, hf, h]
  rw [portEdge, portEdge, portPoke_of_stepEn h, hpoke, hc]
  rfl

/-- Settles O53: each edge by its inputs, the frozen one by `portPoke_of_recorded_fault` and `portStep_cases`. -/
theorem portEdgeIsAHostOperation : Obligations.PortEdgeIsAHostOperation := by
  intro p s
  refine ⟨fun hrst => by rw [portEdge, if_pos hrst, hostCall, hostCallWith], fun hen => portEdge_without_pokes hen s,
    fun hrst hload hen => ?_, fun hrst hload hen => ?_, fun prog hrst hload hstore => ?_⟩
  · rw [portEdge_of_step hrst hload hen]
    refine ⟨fun f hf => by simp [portStep, hf], fun hlen hdata => ?_⟩
    obtain ⟨f, hf, hstep⟩ | ⟨-, -, hstep⟩ | ⟨-, hno, -⟩ := portStep_cases p s
    · rw [hstep, hostCall, hostCallWith, hostStep_of_refused (step_of_recorded_fault hf)]
    · exact hstep
    · exact absurd (storeAnswers_of_encode hlen hdata) (by simp [hno])
  · have hedge := portEdge_of_poke hrst hload hen s
    refine ⟨fun hr hm => ?_, fun i v hr hm => ?_, fun k w hr hm => ?_, fun i v k w hr hm => ?_, fun f hf => ?_⟩
    · rw [hedge, portPokeReg_of_none hr, portPokeMem_of_none hm]
    · rw [hedge, portPokeReg_of_some hr, portPokeMem_of_none hm]
    · rw [hedge, portPokeReg_of_none hr, portPokeMem_of_some hm]
    · rw [hedge, portPokeReg_of_some hr, portPokeMem_of_some hm]
    · rw [hedge, ← portPoke_of_not_stepEn hen, portPoke_of_recorded_fault hf]
  · have hedge := portEdge_of_progLoad (s := s) hrst hload hstore
    refine ⟨fun hen hr hm => ?_, fun t hen hf ht => ?_, fun f hen hf => ?_⟩
    · have hpoke : portPoke p s = s := by
        rw [portPoke_of_not_stepEn hen, portPokeReg_of_none hr, portPokeMem_of_none hm]
      rw [hedge (by cases hf : s.fault <;> simp [loadCompetes, hf, hen, hr, hm]), hpoke]
    · have hpoke : portPoke p s = t := by
        rw [portEdge_of_poke (p := { p with progLoad := false }) hrst rfl hen] at ht
        exact (portPoke_of_not_stepEn hen s).trans (Option.some.inj ht)
      rw [hedge (by simp [loadCompetes, hf, hen]), hpoke]
    · rw [hedge (by simp [loadCompetes, hf, hen]), portPoke_of_recorded_fault hf]

/-! ### The outputs (R230) -/

/-- `PC` fits the port `imem_addr`: it is at most `PROG_MAX` (R26). -/
theorem imemAddr_toNat {s : State} (h : s.Inv) : (portOut s).imemAddr.toNat = s.pc := by
  have hpc := h.pcBound.trans h.progBound
  simp only [Config.progMax, Config.pcWidth] at hpc
  simp only [portOut, BitVec.toNat_ofNat]
  omega

/-- Settles O59: each output from the state element it shows. -/
theorem portOutputsShowTheState : Obligations.PortOutputsShowTheState := fun s =>
  ⟨imemAddr_toNat, stallFlag_eq_true, fun hf => by simp [portOut, hf, faultCode],
    fun a hf => by simp [portOut, hf, faultCode, faultAddr], fun a hf => by simp [portOut, hf, faultCode, faultAddr],
    ⟨rfl, rfl, rfl, rfl, rfl, rfl, rfl, rfl, rfl⟩, fun b h => ⟨s.snapshot (stallFlag b), hostStep_of_next h, rfl⟩⟩

end Sys2Proof.Proofs
end

section
/-! The faults (60_exceptions.md): which errors a step can raise (R243), what a faulting cycle leaves (R244), and what the host can do
while one is recorded (R246). -/

namespace Sys2Proof.Proofs

open Sys2Proof.Machine Sys2Proof.Laws Sys2Proof.Statements

/-! ### Which faults there are (R243) -/

/-- The instructions that make an access are `LW` and `SW` (R139). -/
theorem memAccess_ne_pass {i : Instr} :
    memAccess i ≠ .pass ↔ (∃ rt rs imm, i = .lw rt rs imm) ∨ ∃ rt rs imm, i = .sw rt rs imm := by
  simp only [ne_eq, memAccess_eq_pass, not_and_or, not_forall, not_not]

/-- An address meets one of two errors, alignment first, and no other (R56, R57, R140). -/
theorem addressFault_eq_some {a : Word} {f : Fault} :
    addressFault a = some f ↔ (f = .unalignedMemoryAccess a ∧ a.toNat % 4 ≠ 0) ∨
      (f = .outOfRangeAddress a ∧ a.toNat % 4 = 0 ∧ 4096 ≤ a.toNat) := by
  by_cases hal : a.toNat % 4 = 0
  · by_cases hin : a.toNat < 4096
    · simp [(addressFault_eq_none a).mpr ⟨hal, hin⟩, hal, hin]
    · simp [addressFault_of_out_of_range hal (Nat.le_of_not_lt hin), hal, Nat.le_of_not_lt hin, eq_comm]
  · simp [addressFault_of_misaligned hal, hal, eq_comm]

/-- Settles O47: a fault is raised by the Memory step, which checks the address of an `LW` or `SW` only. -/
theorem onlyLoadsAndStoresFault : Obligations.OnlyLoadsAndStoresFault := by
  intro s f h
  obtain ⟨-, hpending⟩ := pendingFault_of_step_fault h
  obtain ⟨p, a, hp, hm, ha, hfault⟩ := memoryStage_fault.mp (pendingFault_eq_some.mp hpending)
  exact ⟨p, a, hp, memAccess_ne_pass.mp hm, ha, addressFault_eq_some.mp hfault⟩

/-! ### What a faulting cycle leaves (R244) -/

/-- Settles O48: the host records the fault and nothing else, and the port view shows its code and address. -/
theorem faultPublishesNothingButItself : Obligations.FaultPublishesNothingButItself := by
  intro s f h
  refine ⟨s.recordFault f, hostStep_of_fault h, rfl, fun a => ⟨?_, ?_⟩⟩
  · rintro rfl
    exact ⟨rfl, rfl⟩
  · rintro rfl
    exact ⟨rfl, rfl⟩

/-! ### While a fault is recorded (R246) -/

section

variable {s : State} {f : Fault} (h : s.fault = some f)
include h

/-- `run` of every count is answered with the recorded fault (R246, log entry 14). -/
theorem hostRun_of_recorded_fault (n : Int) : hostRun n s = (s, .refused (.faulted f)) := by
  simp [hostRun, h]

/-- A poke is answered with the recorded fault, its index in range or not (R225, log entries 10 and 14). -/
theorem poked_reply_of_recorded_fault (inRange : Bool) (t : State) : poked inRange s t = (s, .refused (.faulted f)) := by
  simp [poked, h]

/-- Every operation but a reset and the two loads keeps the recorded fault, as it is refused (R246). -/
theorem eq_reset_or_load_of_fault_changes {c : Bool} {op : HostOp} (hop : (hostCallWith c op s).1.fault ≠ some f) :
    op = .reset ∨ (∃ rs, op = .load rs) ∨ ∃ ws, op = .loadWords ws := by
  have refused {r : State × HostReply} (hr : r = (s, .refused (.faulted f))) : r.1.fault = some f := by rw [hr, h]
  cases op with
  | reset => exact .inl rfl
  | load rs => exact .inr (.inl ⟨rs, rfl⟩)
  | loadWords ws => exact .inr (.inr ⟨ws, rfl⟩)
  | step => exact absurd (refused (hostStep_of_refused (step_of_recorded_fault h))) hop
  | run n => exact absurd (refused (hostRun_of_recorded_fault h n)) hop
  | pokeReg i v => exact absurd (refused (poked_reply_of_recorded_fault h _ _)) hop
  | pokeMem k v => exact absurd (refused (poked_reply_of_recorded_fault h _ _)) hop

end

/-- An accepted load leaves no fault recorded, with either value of `LOAD_CLEARS_ARCH` (R211, R246). -/
theorem hostCallWith_load_fault (c : Bool) (s : State) {rs : List Record} {is : List Instr} (h : resolveRecords rs = .ok is) :
    (hostCallWith c (.load rs) s).1.fault = none := by
  obtain ⟨-, -, -, hfault, -⟩ := afterLoad_spec c s is
  simpa only [hostCallWith, hostLoad, h] using hfault

/-- Settles O49: step and run are refused, reset and an accepted load clear the fault, and no other operation changes it. -/
theorem faultHoldsUntilResetOrLoad : Obligations.FaultHoldsUntilResetOrLoad := by
  intro c s f h
  have hrun := hostRun_of_recorded_fault h
  refine ⟨step_of_recorded_fault h, hostStep_of_refused (step_of_recorded_fault h), fun n _ => hrun n, fun n => ?_, rfl,
    fun _ _ hres => hostCallWith_load_fault c s hres, fun _ hop => eq_reset_or_load_of_fault_changes h hop⟩
  rw [hostCallWith, hrun]
  exact ⟨rfl, .inr ⟨_, rfl⟩⟩

/-- Settles O60: the recorded fault is looked at before the count of a run and the index of a poke. -/
theorem faultIsAnsweredBeforeABadArgument : Obligations.FaultIsAnsweredBeforeABadArgument := fun _ _ _ h =>
  ⟨hostRun_of_recorded_fault h, fun _ _ => poked_reply_of_recorded_fault h _ _, fun _ _ => poked_reply_of_recorded_fault h _ _⟩

end Sys2Proof.Proofs
end

section
/-! Reset as the start of a run (R270, R271, R274), and the cycles a run takes to drain, its stalls counted on the way (R286, R287). -/

namespace Sys2Proof.Proofs

open Sys2Proof.Machine Sys2Proof.Laws

/-! ### Reset -/

/-- Settles O12: the reset state is the empty program, as if just loaded. -/
theorem resetMeetsTheInvariant : Obligations.ResetMeetsTheInvariant :=
  inv_of_loaded (loaded_afterReset (s := State.reset) (Nat.zero_le _))

/-- An accepted load after a `reset()` leaves the program over the reset state, whatever state was reset (R211, R218). -/
theorem load_after_reset {rs : List Record} {is : List Instr} (h : resolveRecords rs = .ok is) (c : Bool) (s : State) :
    hostCallWith c (.load rs) (hostCall .reset s).1 = (State.reset.loaded is, .done) := by
  simp only [hostCallWith, hostLoad, h]
  cases c <;> rfl

/-- Settles O16: the run starts from one and the same state. -/
theorem resetLoadRunIsReproducible : Obligations.ResetLoadRunIsReproducible := by
  refine ⟨fun c rs is n s s' h => ?_, fun _ => rfl⟩
  rw [load_after_reset h c s, load_after_reset h c s']

/-! ### The stalls of a run, cycle by cycle -/

/-- One cycle stalls when its flag is set, whether it answers or not (R46). -/
theorem stallCycles_one (s : State) : stallCycles 1 s = if stallFlag s then 1 else 0 := by
  rw [stallCycles]
  cases step s <;> rfl

/-- A cycle that does not stall is not counted. -/
theorem stallCycles_one_of_proceed {s : State} (hz : hazard s.ifId s.idEx = .proceed) : stallCycles 1 s = 0 := by
  simp [stallCycles_one, stallFlag_eq_false.mpr hz]

/-- The stalls of a run are those of its first cycles and those of the others. -/
theorem stallCycles_add {m : Nat} {s t : State} (h : RunsTo m s t) (n : Nat) :
    stallCycles (m + n) s = stallCycles m s + stallCycles n t := by
  induction m generalizing s with
  | zero =>
    obtain rfl := runsTo_zero.mp h
    simp [stallCycles]
  | succ m ih =>
    obtain ⟨u, hu, hut⟩ := runsTo_succ.mp h
    rw [Nat.add_right_comm]
    simp only [stallCycles, hu, ih hut, Nat.add_assoc]

/-- Every cycle a slot is held in Decode stalls (R108). -/
theorem Entered.stallCycles_holdTime {P : List Instr} {A₀ : Arch} {k : Nat} {s : State} (h : Entered P A₀ k s) :
    stallCycles (holdTime P k) s = holdTime P k := by
  rw [holdTime, ← h.front.ifId, ← h.idEx]
  cases hz : hazard s.ifId s.idEx with
  | proceed => rfl
  | stall => simp [stallCycles_one, stallFlag_eq_true.mpr hz]

/-- When slot `k` comes to `IF_ID`, the stalls of the slots before it have been made, and no other (R156). -/
theorem stallCycles_of_runsTo {s t : State} (hs : s.Loaded) {k : Nat} (ht : RunsTo (k + 1 + stallsBefore s.prog k) s t) :
    stallCycles (k + 1 + stallsBefore s.prog k) s = stallsBefore s.prog k := by
  induction k generalizing t with
  | zero =>
    obtain ⟨⟨hif, -⟩, -⟩ := hs
    exact stallCycles_one_of_proceed (by rw [hif, hazard_bubble_left])
  | succ k ih =>
    obtain ⟨v, hv, -⟩ := runsTo_snoc_stalls.mp ht
    obtain ⟨u, hu, huv⟩ := runsTo_stallsUpTo.mp hv
    have hentered := entered_of_runsTo hs hu
    have hnone := stallCycles_one_of_proceed (hentered.ready.1 v huv).proceed
    have hbefore : stallsBefore s.prog (k + 1) = stallsBefore s.prog k + holdTime s.prog k := stallsUpTo_eq s.prog k
    rw [hbefore, show k + 1 + 1 + (stallsBefore s.prog k + holdTime s.prog k) =
      k + 1 + stallsBefore s.prog k + (holdTime s.prog k + 1) by omega]
    rw [stallCycles_add hu, ih hu, stallCycles_add huv, hentered.stallCycles_holdTime, hnone, Nat.add_zero]

/-- A run past the end of the program has made all its stalls (R286). -/
theorem stallCycles_past_end {s t : State} {n : Nat} (hs : s.Loaded) (hn : s.prog.length + 1 + stallCount s.prog ≤ n)
    (ht : RunsTo n s t) : stallCycles n s = stallCount s.prog := by
  obtain ⟨k, hk, rfl⟩ : ∃ k, s.prog.length ≤ k ∧ n = k + 1 + stallCount s.prog :=
    ⟨n - 1 - stallCount s.prog, by omega, by omega⟩
  have hall : stallsBefore s.prog k = stallCount s.prog := by rw [stallsBefore, List.take_of_length_le hk]
  rw [← hall] at ht ⊢
  exact stallCycles_of_runsTo hs ht

/-! ### When the datapath has drained -/

/-- A run that answers ends with no fault recorded, as it began (R133). -/
theorem runsTo_fault_eq_none {n : Nat} {s t : State} (h : RunsTo n s t) (hf : s.fault = none) : t.fault = none := by
  induction n generalizing s with
  | zero =>
    obtain rfl := runsTo_zero.mp h
    exact hf
  | succ n ih =>
    obtain ⟨u, hu, hut⟩ := runsTo_succ.mp h
    exact ih hut ((step_frame hu).fault.trans hf)

/-- A drained state without fault runs to itself, for any number of cycles (R155). -/
theorem runsTo_of_drained {s : State} (h : s.Drained) (hf : s.fault = none) (n : Nat) : RunsTo n s s := by
  induction n with
  | zero => exact runsTo_zero.mpr rfl
  | succ n ih => exact runsTo_succ.mpr ⟨s, step_of_drained h hf, ih⟩

/-- No run of a program drains before cycle `len + 4 + s`: the drained state would last into the cycle before it, and then the last slot is
in `MEM_WB`. -/
theorem le_of_drained {s t : State} {n : Nat} (hs : s.Loaded) (hne : s.prog ≠ []) (ht : RunsTo n s t) (hd : t.Drained) :
    s.prog.length + 4 + stallCount s.prog ≤ n := by
  by_contra hlt
  obtain ⟨k, hk⟩ := Nat.exists_eq_add_one.mpr (List.length_pos_iff.mpr hne)
  obtain ⟨m, hm⟩ : ∃ m, n + m = k + 4 + stallsUpTo s.prog k := by
    rw [stallsUpTo_of_length_le hk.le]
    exact ⟨k + 4 + stallCount s.prog - n, by omega⟩
  have hi : s.prog[k]? = some s.prog[k] := List.getElem?_eq_getElem (by omega)
  have ⟨_, _, _, hfault, _⟩ := hs
  have hlast := runsTo_add.mpr ⟨t, ht, runsTo_of_drained hd (runsTo_fault_eq_none ht hfault) m⟩
  rw [hm] at hlast
  obtain ⟨-, q, hq, -⟩ := memWb_of_runsTo hs hi hlast
  obtain ⟨-, -, -, -, hmw⟩ := hd
  cases hmw.symm.trans hq

/-- Settles O57: the datapath has drained by cycle `len + 4 + s`, and not before; all stalls are made by then. -/
theorem drainTimeCountsTheStalls : Obligations.DrainTimeCountsTheStalls := by
  refine ⟨fun s t n hs hne ht => ⟨⟨le_of_drained hs hne ht, fun hn => ?_⟩, fun hn => ?_⟩, fun s hs hnil => ?_⟩
  · obtain ⟨hdrained, -⟩ := drained_of_runsTo hs hn ht
    exact hdrained
  · exact stallCycles_past_end hs (by omega) ht
  · obtain ⟨hempty, hpc, -⟩ := hs
    exact ⟨by rw [hpc, hnil, List.length_nil], hempty⟩

end Sys2Proof.Proofs
end
